-- ==== Sys2Proof/Word.lean ====
section
/-! DEFINITION. The widths every other file is written in (`00_scope.md` R10, R11): the byte, the
32-bit word of the SHA-256 instance, the 64-bit command descriptor. Nothing else stands here: every
operator on them is in `Decode.lean` or under `Machine/`. -/

namespace Sys2Proof

/-- The unit of data of the engine (R57). -/
abbrev Byte := BitVec 8

/-- The word of the compressor, `w = 32` (R7, R11). -/
abbrev Word := BitVec 32

/-- One command descriptor, bit 63 most significant (R70, R71). -/
abbrev Descriptor := BitVec 64

end Sys2Proof
end

