-- ==== Sys2Proof/Config.lean ====
section
/-! DEFINITION. What is fixed for the machine: the shape of the Algorithm Parameters record (R6), the
interface parameters that are widths (R8), and the FREE VALUES, constants without a body about which
nothing can be proved. The values of the SHA-256 record stand in `Machine/Params.lean`. -/

namespace Sys2Proof.Config

/-- The Algorithm Parameters record, "immutable, selected at construction" (R6).
The word size `w`, the state size `S` and the number of rounds `NR` are parameters of the type, so
that the two tables have their lengths in their types. -/
structure AlgParams (w S NR : Nat) where
  /-- block size in bytes -/
  B : Nat
  /-- digest size in bytes -/
  DS : Nat
  /-- length-field size in bytes -/
  LF : Nat
  /-- round-constant table `K[0..NR-1]` -/
  K : Vector (BitVec w) NR
  /-- initial state vector `IV[0..S-1]` -/
  IV : Vector (BitVec w) S
  deriving DecidableEq, Repr

/-- Width of the UPDATE length field (R8, R72). -/
abbrev nbytesBits : Nat := 32

/-- One hasher instance per engine (R8, R9): `Machine.State` holds one context. -/
abbrev numContexts : Nat := 1

/-! ### Free values

`draw` is a number the step takes from the counter `State.draws` and advances, so that two draws are
never tied to each other. -/

/-- The byte `BUF[i]` after draw `draw`, for an `i` at or past `BUF_LEN`: "hold no value a rule reads"
(R25), "unspecified" in `FINALIZED` (R34), U2 "any value". Log entry 2. DESIGN CHOICE: it has no argument
for the engine, so two engines (R200) at the same draw number hold the same byte, a point the spec leaves
open (log entry 15). -/
opaque freeBufByte (draw i : Nat) : Byte

/-- `ALG` after a reset: "unspecified (no value)" (R27, U1). Log entry 1. -/
opaque resetAlg (draw : Nat) : Byte

/-- `H[0..7]` after a reset (R27, U1). Log entry 1. -/
opaque resetH (draw : Nat) : Vector Word 8

/-- `LEN` after a reset (R27, U1). Log entry 1. -/
opaque resetLen (draw : Nat) : BitVec 64

/-- `BUF[0..63]` after a reset (R27, U1). Log entry 1. -/
opaque resetBuf (draw : Nat) : Vector Byte 64

/-- `BUF_LEN` after a reset (R27, U1). Log entry 1. -/
opaque resetBufLen (draw : Nat) : Fin 64

/-- `DIGEST[0..31]` after a reset (R27, U1). Log entry 1. -/
opaque resetDigest (draw : Nat) : Vector Byte 32

end Sys2Proof.Config
end

