-- ==== Sys2Proof/Syntax.lean ====
section
/-! DEFINITION. The commands of the engine, one constructor per row of `spec/opcode_table.json`
(R74, R77), and the lines of the command-stream text (R84, R85). -/

namespace Sys2Proof

/-- A decoded command (R77). `ILLEGAL(op)` is no command of the table: it is the decoder's rejection. -/
inductive Instr where
  /-- CONSTRUCT, operand the 8-bit `ALG` field (R73, R140) -/
  | construct (alg : Byte)
  /-- UPDATE, operand the payload, whose length is the `NBYTES` field (R72, R141) -/
  | update (data : List Byte)
  /-- FINALIZE (R150) -/
  | finalize
  /-- READ_DIGEST (R155) -/
  | readDigest
  deriving DecidableEq, Repr

/-- One line of a command stream's text (R84), the pseudo-commands of R85 among them. -/
inductive AsmLine where
  /-- one command under its own mnemonic -/
  | command (i : Instr)
  /-- `.raw`, any descriptor and the payload that follows it -/
  | raw (d : Descriptor) (payload : List Byte)
  /-- `HASH <data>` -/
  | hash (data : List Byte)
  /-- `ABSORB <data>` -/
  | absorb (data : List Byte)
  deriving DecidableEq, Repr

end Sys2Proof
end

