-- ==== Sys2Proof/WellFormed.lean ====
section
/-! DEFINITION. Which terms of `Instr` a descriptor can carry. -/

namespace Sys2Proof

/-- The only bound the encoding puts on an operand that its type does not already put there:
`len(data) < 2^32` (R72, R77). Every 8-bit `ALG` is well-formed (R73). -/
def Instr.wf : Instr → Bool
  | .construct _ => true
  | .update data => data.length < 2 ^ Config.nbytesBits
  | .finalize => true
  | .readDigest => true

/-- `Instr.wf` as a proposition. -/
abbrev Instr.WellFormed (i : Instr) : Prop := i.wf = true

end Sys2Proof
end

