-- ==== Sys2Proof/Decode.lean ====
section
/-! DEFINITION. Bits to commands (R70 to R79, R86) and back: the descriptor's fields, payload framing,
`decode` of R77, the decoder on bytes, the encoder, and the opcode table's match and mask pairs (R75). -/

namespace Sys2Proof

/-! ### Descriptor fields (R71) -/

/-- `OPCODE = d[63:56]`. -/
def opcodeOf (d : Descriptor) : Byte := d.extractLsb' 56 8

/-- `ALG = d[55:48]`, unsigned, no extension (R73). -/
def algOf (d : Descriptor) : Byte := d.extractLsb' 48 8

/-- `RSVD = d[47:32]`. -/
def rsvdOf (d : Descriptor) : BitVec 16 := d.extractLsb' 32 16

/-- `NBYTES = d[31:0]` (R72). -/
def nbytesOf (d : Descriptor) : BitVec 32 := d.extractLsb' 0 32

/-- A descriptor from its four fields (R71). -/
def descriptorOf (op alg : Byte) (rsvd : BitVec 16) (nbytes : BitVec 32) : Descriptor :=
  op ++ alg ++ rsvd ++ nbytes

/-! ### Byte order of a descriptor (R12, R79) -/

/-- `BE64enc(n)`: `n[63:56]` first, `n[7:0]` last (R12). -/
def be64enc (n : BitVec 64) : List Byte :=
  [n.extractLsb' 56 8, n.extractLsb' 48 8, n.extractLsb' 40 8, n.extractLsb' 32 8,
   n.extractLsb' 24 8, n.extractLsb' 16 8, n.extractLsb' 8 8, n.extractLsb' 0 8]

/-- The number whose big-endian bytes are `bs`. -/
def beNat (bs : List Byte) : Nat := bs.foldl (fun n b => n * 256 + b.toNat) 0

/-- The descriptor whose eight bytes, most significant first, are `bs` (R79). -/
def descriptorOfBytes (bs : List Byte) : Descriptor := BitVec.ofNat 64 (beNat bs)

/-! ### Opcodes (R74) -/

/-- `0x01`. -/
def opConstruct : Byte := 0x01
/-- `0x02`. -/
def opUpdate : Byte := 0x02
/-- `0x03`. -/
def opFinalize : Byte := 0x03
/-- `0x04`. -/
def opReadDigest : Byte := 0x04

/-- The `OPCODE` field of a command (R74). -/
def Instr.opcode : Instr → Byte
  | .construct _ => opConstruct
  | .update _ => opUpdate
  | .finalize => opFinalize
  | .readDigest => opReadDigest

/-- Payload framing, on `OPCODE` and `NBYTES` alone (R76). -/
def payloadLen (d : Descriptor) : Nat :=
  if opcodeOf d = opUpdate then (nbytesOf d).toNat else 0

/-! ### Decoding -/

/-- What R77's `decode` answers. -/
inductive Decoded where
  /-- a command of the table -/
  | command (i : Instr)
  /-- `ILLEGAL(op)` (R78): unknown opcode, or a field that must be zero is not -/
  | illegal (op : Byte)
  deriving DecidableEq, Repr

/-- `decode(d, payload)` of R77, total on every descriptor. -/
def decode (d : Descriptor) (payload : List Byte) : Decoded :=
  if opcodeOf d = opConstruct ∧ rsvdOf d = 0 ∧ nbytesOf d = 0 then .command (.construct (algOf d))
  else if opcodeOf d = opUpdate ∧ algOf d = 0 ∧ rsvdOf d = 0 then .command (.update payload)
  else if opcodeOf d = opFinalize ∧ algOf d = 0 ∧ rsvdOf d = 0 ∧ nbytesOf d = 0 then
    .command .finalize
  else if opcodeOf d = opReadDigest ∧ algOf d = 0 ∧ rsvdOf d = 0 ∧ nbytesOf d = 0 then
    .command .readDigest
  else .illegal (opcodeOf d)

/-- Why the decoder on bytes answers no command. -/
inductive Rejection where
  /-- fewer than eight bytes: no whole descriptor (R70) -/
  | shortDescriptor
  /-- fewer payload bytes than `NBYTES` (R76, R215) -/
  | shortPayload
  /-- `ILLEGAL(op)` (R78) -/
  | illegal (op : Byte)
  deriving DecidableEq, Repr

/-- The decoder on the bytes of a command channel: the command they begin with, and the bytes after
it (R70, R76, R77, R79). -/
def decodeBytes (bs : List Byte) : Except Rejection (Instr × List Byte) :=
  if bs.length < 8 then .error .shortDescriptor
  else
    let d := descriptorOfBytes (bs.take 8)
    let n := payloadLen d
    let rest := bs.drop 8
    if rest.length < n then .error .shortPayload
    else
      match decode d (rest.take n) with
      | .command i => .ok (i, rest.drop n)
      | .illegal op => .error (.illegal op)

/-! ### Encoding -/

/-- The descriptor of a command (R74, R75). -/
def encodeDescriptor : Instr → Descriptor
  | .construct alg => descriptorOf opConstruct alg 0 0
  | .update data => descriptorOf opUpdate 0 0 (BitVec.ofNat 32 data.length)
  | .finalize => descriptorOf opFinalize 0 0 0
  | .readDigest => descriptorOf opReadDigest 0 0 0

/-- The payload of a command (R76). -/
def Instr.payload : Instr → List Byte
  | .construct _ => []
  | .update data => data
  | .finalize => []
  | .readDigest => []

/-- The bytes of a command on a byte channel: the descriptor, then the payload (R70, R79). -/
def encode (i : Instr) : List Byte := be64enc (encodeDescriptor i) ++ i.payload

/-! ### The opcode table (R75) -/

/-- One row of the opcode table. -/
structure OpcodeRow where
  mnemonic : String
  matchBits : Descriptor
  mask : Descriptor
  deriving DecidableEq, Repr

/-- The four match and mask pairs of R75. -/
def opcodeTable : List OpcodeRow :=
  [⟨"CONSTRUCT", 0x0100000000000000, 0xFF00FFFFFFFFFFFF⟩,
   ⟨"UPDATE", 0x0200000000000000, 0xFFFFFFFF00000000⟩,
   ⟨"FINALIZE", 0x0300000000000000, 0xFFFFFFFFFFFFFFFF⟩,
   ⟨"READ_DIGEST", 0x0400000000000000, 0xFFFFFFFFFFFFFFFF⟩]

/-- A descriptor matches a row. -/
def OpcodeRow.covers (r : OpcodeRow) (d : Descriptor) : Bool := d &&& r.mask == r.matchBits

/-- The mnemonic of a command's row (R84). -/
def Instr.mnemonic : Instr → String
  | .construct _ => "CONSTRUCT"
  | .update _ => "UPDATE"
  | .finalize => "FINALIZE"
  | .readDigest => "READ_DIGEST"

/-! ### A table word -/

/-- `n` bytes of `w` from bit `lo` up, eight bits a byte. -/
def wordBytes (w : Nat) : (lo n : Nat) → List Byte
  | _, 0 => []
  | lo, n + 1 => BitVec.ofNat 8 (w >>> lo) :: wordBytes w (lo + 8) n

/-- The bytes of the instruction whose low `nbits` bits are those of `w`, numbered as the opcode table
numbers them (bits 63 to 0 are the descriptor), every bit above `nbits` zero: the descriptor as it is
sent, then as many payload bytes as it calls for, taken from bit 64 up. -/
def tableWordBytes (nbits w : Nat) : List Byte :=
  let v := w % 2 ^ nbits
  let d := BitVec.ofNat 64 v
  be64enc d ++ wordBytes v 64 (payloadLen d)

/-- The instruction the decoder reads from a table word. -/
def decodeTableWord (nbits w : Nat) : Option Instr :=
  match decodeBytes (tableWordBytes nbits w) with
  | .ok (i, _) => some i
  | .error _ => none

end Sys2Proof
end

