-- ==== Sys2Proof/Machine/State.lean ====
section
/-! DEFINITION. The state of one engine (R22 to R28, R35), the two channels that join it to its host
(R9, R33), the reasons a step can stop, and the state after reset (R27, R210). -/

namespace Sys2Proof.Machine

/-- `LC`, the Hasher Lifecycle State (R22). -/
inductive Lifecycle where
  /-- no hasher instance: the value after reset -/
  | unconstructed
  /-- an instance that accepts UPDATE and FINALIZE -/
  | active
  /-- an instance whose digest is latched -/
  | finalized
  deriving DecidableEq, Repr

/-- One response (R80): the 32-bit response word and the payload that follows it. -/
structure Response where
  word : BitVec 32
  payload : List Byte
  deriving DecidableEq, Repr

/-- One thing the host does to the engine (R214, R223): it sends a byte on the command channel or
applies reset. Where a reset strikes is the host's timing, so it is part of the input (R210, R211,
U10; log entry 5). -/
inductive ChannelItem where
  /-- the next byte of the command channel (R79) -/
  | byte (b : Byte)
  /-- reset, applied between commands or inside an unfinished one -/
  | reset
  /-- reset, applied after the last byte of the command before it arrived and before that command's
  response was sent -/
  | resetBeforeResponse
  deriving DecidableEq, Repr

/-- The whole state: the seven elements of R35, then the model's own three fields (the channels and
the counter of free values). -/
structure State where
  /-- `LC` (R22) -/
  lc : Lifecycle
  /-- `ALG`, 8 bits (R26) -/
  alg : Byte
  /-- `H[0..7]`, eight 32-bit words (R23) -/
  h : Vector Word 8
  /-- `LEN`, 64-bit count of bytes (R24) -/
  len : BitVec 64
  /-- `BUF[0..63]` (R25) -/
  buf : Vector Byte 64
  /-- `BUF_LEN`, 0 to 63 (R25) -/
  bufLen : Fin 64
  /-- `DIGEST[0..31]` (R28) -/
  digest : Vector Byte 32
  /-- what the host has sent and the engine has not yet taken, oldest first (R33, R58) -/
  input : List ChannelItem
  /-- the responses sent, oldest first (R33, R58, R223) -/
  output : List Response
  /-- how many free values have been drawn (log entry 2) -/
  draws : Nat
  deriving DecidableEq, Repr

/-- Faults. There is none: the engine has no traps (R187), every error of a command is the status of
its response (R180), and every register holds a value (log entry 1), so no read faults. -/
inductive Fault where
  deriving DecidableEq, Repr

/-- Refusals. -/
inductive Refusal where
  /-- An arm of `exec` that has no meaning yet. No arm of this model raises it. Safe. -/
  | notModelled (mnemonic : String)
  /-- Raised by `step` alone, when the channel holds the beginning of a command and neither the rest of
  it nor a reset: the host broke duty (a) of R214, and R215 has a model refuse that run. Safe. -/
  | incompleteCommand
  deriving DecidableEq, Repr

/-- The state a reset leaves (R27, R210): `LC` is `UNCONSTRUCTED`; for every element the spec gives "no
value" the free value of draw `k` (log entry 1); both channels empty. -/
def State.resetAt (k : Nat) : State where
  lc := .unconstructed
  alg := Config.resetAlg k
  h := Config.resetH k
  len := Config.resetLen k
  buf := Config.resetBuf k
  bufLen := Config.resetBufLen k
  digest := Config.resetDigest k
  input := []
  output := []
  draws := k + 1

/-- The machine right after power-on reset: nothing sent by the host, no response sent (R27, R212). -/
def State.reset : State := State.resetAt 0

end Sys2Proof.Machine
end

