-- ==== Sys2Proof/Machine/Operands.lean ====
section
/-! DEFINITION. The word operators of R11, the byte and integer conversions of R12, and the two operands
a command's meaning takes from the state: the pending bytes and nothing else (R86: there is no register
operand and no address operand; `ALG` and the payload come with the command). -/

namespace Sys2Proof.Machine

/-- `ROTR(x, n)` for `0 < n < 32` (R11). -/
def rotr (n : Nat) (x : Word) : Word := (x >>> n) ||| (x <<< (32 - n))

/-- `SHR(x, n)`, zeros shifted in (R11). -/
def shr (n : Nat) (x : Word) : Word := x >>> n

/-- `BE32(b0, b1, b2, b3)`, first byte most significant (R12). -/
def be32 (b0 b1 b2 b3 : Byte) : Word := b0 ++ b1 ++ b2 ++ b3

/-- `BE32enc(x)`: `x[31:24], x[23:16], x[15:8], x[7:0]` (R12). -/
def be32enc (x : Word) : List Byte :=
  [x.extractLsb' 24 8, x.extractLsb' 16 8, x.extractLsb' 8 8, x.extractLsb' 0 8]

/-- A 64-byte block: the compressor's argument type admits no other size (R100, U5). -/
abbrev Block := Vector Byte 64

/-- The first block of a byte sequence that holds one (R143). -/
def firstBlock (p : List Byte) (h : 64 ≤ p.length) : Block :=
  ⟨(p.take 64).toArray, by simp [h]⟩

/-- `BUF[0..BUF_LEN)`, the pending bytes in input order (R25). -/
def State.pending (s : State) : List Byte := s.buf.toList.take s.bufLen

end Sys2Proof.Machine
end

