-- ==== Sys2Proof/Machine/Params.lean ====
section
/-! DEFINITION. The SHA-256 instance of the Algorithm Parameters record (R7, R107, R108), the closed set
of algorithm identifiers (R3, R83), and `LEN_MAX` (R8). -/

namespace Sys2Proof.Machine

/-- The eight words of one row of a table as the spec prints it, leftmost word first (R107). -/
def rowWords (row : BitVec 256) : List Word :=
  (List.range 8).map fun j => row.extractLsb' (32 * (7 - j)) 32

/-- The table of R107, row by row: row `r` holds `K[8r]` to `K[8r+7]`, an underscore for each blank. -/
def kRows : List (BitVec 256) := [
    0x428a2f98_71374491_b5c0fbcf_e9b5dba5_3956c25b_59f111f1_923f82a4_ab1c5ed5,
    0xd807aa98_12835b01_243185be_550c7dc3_72be5d74_80deb1fe_9bdc06a7_c19bf174,
    0xe49b69c1_efbe4786_0fc19dc6_240ca1cc_2de92c6f_4a7484aa_5cb0a9dc_76f988da,
    0x983e5152_a831c66d_b00327c8_bf597fc7_c6e00bf3_d5a79147_06ca6351_14292967,
    0x27b70a85_2e1b2138_4d2c6dfc_53380d13_650a7354_766a0abb_81c2c92e_92722c85,
    0xa2bfe8a1_a81a664b_c24b8b70_c76c51a3_d192e819_d6990624_f40e3585_106aa070,
    0x19a4c116_1e376c08_2748774c_34b0bcb5_391c0cb3_4ed8aa4a_5b9cca4f_682e6ff3,
    0x748f82ee_78a5636f_84c87814_8cc70208_90befffa_a4506ceb_bef9a3f7_c67178f2]

/-- The SHA-256 parameter values (R7), with `K` of R107 and `IV` of R108. -/
def sha256 : Config.AlgParams 32 8 64 where
  B := 64
  DS := 32
  LF := 8
  K := ⟨(kRows.flatMap rowWords).toArray, rfl⟩
  IV := #v[
    0x6a09e667, 0xbb67ae85, 0x3c6ef372, 0xa54ff53a, 0x510e527f, 0x9b05688c, 0x1f83d9ab, 0x5be0cd19]

/-- The identifier of SHA-256 (R83). -/
def algSha256 : Byte := 0x01

/-- The record an algorithm identifier selects: the set is closed and has one member (R3, R83). -/
def paramsOf (alg : Byte) : Option (Config.AlgParams 32 8 64) :=
  if alg = algSha256 then some sha256 else none

/-- `LEN_MAX = 2^61 - 1`, the largest byte count whose bit count fits the length field (R8, R145). -/
def lenMax : Nat := 2 ^ 61 - 1

end Sys2Proof.Machine
end

