-- ==== Sys2Proof/Machine/Compressor.lean ====
section
/-! DEFINITION. The Block Compressor (R100 to R111): a pure function of a state vector and one block.
Its schedule and working variables are no part of `State` (R30). -/

namespace Sys2Proof.Machine

/-- `Ch(x, y, z)` (R101). -/
def chF (x y z : Word) : Word := (x &&& y) ^^^ (~~~x &&& z)

/-- `Maj(x, y, z)` (R101). -/
def majF (x y z : Word) : Word := (x &&& y) ^^^ (x &&& z) ^^^ (y &&& z)

/-- `Sigma0(x)` (R102). -/
def bigSigma0 (x : Word) : Word := rotr 2 x ^^^ rotr 13 x ^^^ rotr 22 x

/-- `Sigma1(x)` (R102). -/
def bigSigma1 (x : Word) : Word := rotr 6 x ^^^ rotr 11 x ^^^ rotr 25 x

/-- `sigma0(x)` (R103). -/
def smallSigma0 (x : Word) : Word := rotr 7 x ^^^ rotr 18 x ^^^ shr 3 x

/-- `sigma1(x)` (R103). -/
def smallSigma1 (x : Word) : Word := rotr 17 x ^^^ rotr 19 x ^^^ shr 10 x

/-- Message word `M[j]`, big-endian (R52). -/
def messageWord (blk : Block) (j : Fin 16) : Word :=
  be32 blk[4 * j.val] blk[4 * j.val + 1] blk[4 * j.val + 2] blk[4 * j.val + 3]

/-- The first `16 + k` words of the message schedule: the sixteen message words, then `k` steps of the
recurrence (R105). -/
def scheduleTo (blk : Block) : (k : Nat) → Vector Word (16 + k)
  | 0 => Vector.ofFn (messageWord blk)
  | k + 1 =>
    let W := scheduleTo blk k
    W.push (smallSigma1 W[16 + k - 2] + W[16 + k - 7] + smallSigma0 W[16 + k - 15] + W[16 + k - 16])

/-- The message schedule `W[0..63]` (R105). -/
def schedule (blk : Block) : Vector Word 64 := scheduleTo blk 48

/-- The eight working variables (R30, R106). -/
structure Working where
  (a b c d e f g h : Word)
  deriving DecidableEq, Repr

/-- The working variables a compression starts with (R106). -/
def workingOf (H : Vector Word 8) : Working :=
  ⟨H[0], H[1], H[2], H[3], H[4], H[5], H[6], H[7]⟩

/-- One round: every right-hand side reads the values of the round's start (R106). -/
def roundStep (k w : Word) (v : Working) : Working :=
  let T1 := v.h + bigSigma1 v.e + chF v.e v.f v.g + k + w
  let T2 := bigSigma0 v.a + majF v.a v.b v.c
  { a := T1 + T2, b := v.a, c := v.b, d := v.c, e := v.d + T1, f := v.e, g := v.f, h := v.g }

/-- The working variables after rounds `0` to `t - 1`, in increasing order (R106). -/
def roundsTo (W : Vector Word 64) (v : Working) : (t : Nat) → t ≤ 64 → Working
  | 0, _ => v
  | t + 1, ht => roundStep sha256.K[t] W[t] (roundsTo W v t (Nat.le_of_succ_le ht))

/-- Feed-forward (R109). -/
def feedForward (H : Vector Word 8) (v : Working) : Vector Word 8 :=
  #v[H[0] + v.a, H[1] + v.b, H[2] + v.c, H[3] + v.d, H[4] + v.e, H[5] + v.f, H[6] + v.g, H[7] + v.h]

/-- `compress(Hin, blk)` (R110). -/
def compress (H : Vector Word 8) (blk : Block) : Vector Word 8 :=
  feedForward H (roundsTo (schedule blk) (workingOf H) 64 (Nat.le_refl 64))

end Sys2Proof.Machine
end

