-- ==== Sys2Proof/Machine/Flags.lean ====
section
/-! DEFINITION. The engine has no flags register and no condition codes (R29): the only condition a
command reports is the status of its response. Here are the status codes (R81) and the response word
(R80). -/

namespace Sys2Proof.Machine

/-- The outcomes a command can report (R81). -/
inductive Status where
  | ok
  | unsupportedAlgorithm
  | invalidState
  | counterOverflow
  | illegalCommand
  deriving DecidableEq, Repr

/-- The numeric status code (R81). -/
def Status.code : Status → Byte
  | .ok => 0x00
  | .unsupportedAlgorithm => 0x01
  | .invalidState => 0x02
  | .counterOverflow => 0x03
  | .illegalCommand => 0x04

/-- The response word: `ROP` in bits 31:24, zero in 23:8, `STATUS` in 7:0 (R80). -/
def responseWord (op : Byte) (st : Status) : BitVec 32 := op ++ (0 : BitVec 16) ++ st.code

/-- `ROP` of a response (R80). -/
def Response.rop (r : Response) : Byte := r.word.extractLsb' 24 8

/-- `STATUS` of a response (R80). -/
def Response.status (r : Response) : Byte := r.word.extractLsb' 0 8

/-- A response on a byte channel: the word most significant byte first, then the payload (R79). -/
def Response.toBytes (r : Response) : List Byte := be32enc r.word ++ r.payload

end Sys2Proof.Machine
end

