-- ==== Sys2Proof/Machine/Ops.lean ====
section
/-! DEFINITION. The shared operations: cutting blocks and chaining them (R143, R146), padding (R151),
digest encoding (R153), what each command does to the state, the response (R80), the report of an error
(R13, R188), reset (R210), and taking a command from the channel (R76, R211).

The engine has no trap entry and no return from one (R187, R189): `State.raise` is the whole of what an
error does. -/

namespace Sys2Proof.Machine

/-! ### Blocks -/

/-- The block sequencer's cutting: "while len(P) - i >= 64" take one block from the front (R141, R143).
Answers the blocks in stream order and what is left. `fuel` bounds the loop; `p.length` suffices. -/
def cutBlocks : (fuel : Nat) → (p : List Byte) → List Block × List Byte
  | 0, p => ([], p)
  | fuel + 1, p =>
    if h : 64 ≤ p.length then
      let r := cutBlocks fuel (p.drop 64)
      (firstBlock p h :: r.1, r.2)
    else ([], p)

/-- The full blocks of a byte sequence, in order. -/
def blocksOf (p : List Byte) : List Block := (cutBlocks p.length p).1

/-- The bytes after the last full block. -/
def tailOf (p : List Byte) : List Byte := (cutBlocks p.length p).2

/-- `chain(Hs, X)`: fold `compress` over the consecutive blocks of `X` (R146, R31 (d)). -/
def chain (H : Vector Word 8) (x : List Byte) : Vector Word 8 := (blocksOf x).foldl compress H

/-! ### Padding and the digest -/

/-- `z = (B - LF - 1 - len(tail)) mod B`, the number of zero bytes (R151). One `B` is added before the
subtraction because `Nat` stops at zero. -/
def padZeros (tailLen : Nat) : Nat := (sha256.B + (sha256.B - sha256.LF - 1) - tailLen) % sha256.B

/-- `pad(tail, L)`: `0x80`, the zero bytes, and the number of BITS as eight big-endian bytes
(R53, R151). -/
def pad (tail : List Byte) (L : Nat) : List Byte :=
  tail ++ [0x80] ++ List.replicate (padZeros tail.length) 0x00 ++ be64enc (BitVec.ofNat 64 (8 * L))

/-- `BE32enc(H[0]) ++ ... ++ BE32enc(H[7])` (R54, R153). -/
def digestBytes (H : Vector Word 8) : List Byte :=
  be32enc H[0] ++ be32enc H[1] ++ be32enc H[2] ++ be32enc H[3] ++
    be32enc H[4] ++ be32enc H[5] ++ be32enc H[6] ++ be32enc H[7]

/-- The digest bytes as the register `DIGEST` holds them. -/
def encodeDigest (H : Vector Word 8) : Vector Byte 32 := ⟨(digestBytes H).toArray, rfl⟩

/-! ### Responses -/

/-- `respond(status, payload)`: one response on the response channel (R13, R80). -/
def State.respond (s : State) (op : Byte) (st : Status) (payload : List Byte) : State :=
  { s with output := s.output ++ [⟨responseWord op st, payload⟩] }

/-- `raise E`: the response carries the status and no payload, and no state element is written
(R13, R188). -/
def State.raise (s : State) (op : Byte) (e : Status) : State := s.respond op e []

/-! ### What each command writes -/

/-- What a successful CONSTRUCT writes: `ALG`, `H`, `BUF_LEN`, `LEN`, `LC`, and nothing else (R140). -/
def State.construct (s : State) (alg : Byte) (p : Config.AlgParams 32 8 64) : State :=
  { s with alg := alg, h := p.IV, bufLen := 0, len := 0, lc := .active }

/-- The 64 bytes of `BUF` when `tail` is pending: `BUF[0..len(tail))` is `tail`, and every byte from
`BUF_LEN` on is a free value of this draw (R25, R34, U2; log entry 2). -/
def bufHolding (draw : Nat) (tail : List Byte) : Vector Byte 64 :=
  ⟨((List.range 64).map fun i => tail.getD i (Config.freeBufByte draw i)).toArray, by simp⟩

/-- `BUF[0..len(tail)) <- tail`, `BUF_LEN <- len(tail)` (R141), the rest of `BUF` drawn afresh. -/
def State.storePending (s : State) (tail : List Byte) : State :=
  { s with
    buf := bufHolding s.draws tail
    bufLen := Fin.ofNat 64 tail.length
    draws := s.draws + 1 }

/-- What a successful UPDATE of `data` writes (R141 to R144). An empty chunk "succeeds and changes no
state" (R56). -/
def State.absorb (s : State) (data : List Byte) : State :=
  match data with
  | [] => s
  | b :: bs =>
    let p := s.pending ++ (b :: bs)
    { s with
      len := s.len + BitVec.ofNat 64 (bs.length + 1)
      h := chain s.h p }.storePending (tailOf p)

/-- The state vector a FINALIZE leaves: the padded tail's one or two blocks compressed (R150, R152). -/
def State.finalH (s : State) : Vector Word 8 := chain s.h (pad s.pending s.len.toNat)

/-- What a successful FINALIZE writes: `H`, `BUF_LEN`, `DIGEST`, `LC` (R150, R154), with `BUF` left
unspecified (R34). -/
def State.finalize (s : State) : State :=
  { s with h := s.finalH, digest := encodeDigest s.finalH, lc := .finalized }.storePending []

/-! ### Reset -/

/-- Reset, applied to a running engine: every state element to its reset value (R210), the channel going
on with `rest` at a descriptor boundary (R211). The responses already sent stay sent. -/
def State.applyReset (s : State) (rest : List ChannelItem) : State :=
  { State.resetAt s.draws with input := rest, output := s.output }

/-- The same engine with `items` waiting on its channel. -/
def State.withInput (s : State) (items : List ChannelItem) : State := { s with input := items }

/-! ### Taking a command from the channel -/

/-- What waiting for a number of bytes ends in. -/
inductive Taken where
  /-- the bytes, and what follows them -/
  | bytes (bs : List Byte) (rest : List ChannelItem)
  /-- a reset struck first (R211): the bytes before it are gone -/
  | reset (rest : List ChannelItem)
  /-- the host sends no more -/
  | short
  deriving DecidableEq, Repr

/-- One more byte before those taken. -/
def Taken.cons (b : Byte) : Taken → Taken
  | .bytes bs rest => .bytes (b :: bs) rest
  | .reset rest => .reset rest
  | .short => .short

/-- Take `n` bytes from the channel. -/
def takeBytes : List ChannelItem → Nat → Taken
  | items, 0 => .bytes [] items
  | [], _ + 1 => .short
  | .byte b :: items, n + 1 => (takeBytes items n).cons b
  | .reset :: items, _ + 1 => .reset items
  | .resetBeforeResponse :: items, _ + 1 => .reset items

/-- What the engine finds on its channel. -/
inductive Fetched where
  /-- nothing: it waits (R196, R212) -/
  | idle
  /-- a reset, the command it struck abandoned (R210, R211) -/
  | reset (rest : List ChannelItem)
  /-- the beginning of a command that never becomes whole (R215) -/
  | incomplete
  /-- a descriptor with its whole payload (R70, R76) -/
  | command (d : Descriptor) (payload : List Byte) (rest : List ChannelItem)
  deriving DecidableEq, Repr

/-- A whole command has arrived; a reset can still strike before its response (R211, U10). -/
def commandOrReset (d : Descriptor) (payload : List Byte) : List ChannelItem → Fetched
  | .resetBeforeResponse :: rest => .reset rest
  | rest => .command d payload rest

/-- Take the payload the descriptor calls for (R76). -/
def fetchPayload (d : Descriptor) (items : List ChannelItem) : Fetched :=
  match takeBytes items (payloadLen d) with
  | .bytes payload rest => commandOrReset d payload rest
  | .reset rest => .reset rest
  | .short => .incomplete

/-- Take the next command: eight descriptor bytes, most significant first (R79), then the payload. -/
def fetch : List ChannelItem → Fetched
  | [] => .idle
  | i :: items =>
    match takeBytes (i :: items) 8 with
    | .bytes bs rest => fetchPayload (descriptorOfBytes bs) rest
    | .reset rest => .reset rest
    | .short => .incomplete

end Sys2Proof.Machine
end

