-- ==== Sys2Proof/Machine/Streaming.lean ====
section
/-! DEFINITION. The meanings of the four commands of the Streaming Hasher (`41_streaming.md`) and of an
illegal descriptor. Each ends the command with exactly one response (R80) and a next state. The order of
the checks is that of R186. -/

namespace Sys2Proof.Machine

/-- CONSTRUCT (R140): legal in every lifecycle state. -/
def execConstruct (alg : Byte) (s : State) : Host.Outcome State Fault Refusal :=
  match paramsOf alg with
  | none => .next (s.raise opConstruct .unsupportedAlgorithm)
  | some p => .next ((s.construct alg p).respond opConstruct .ok [])

/-- UPDATE (R141). The sum with `LEN` does not wrap (R145). -/
def execUpdate (data : List Byte) (s : State) : Host.Outcome State Fault Refusal :=
  if s.lc ≠ .active then .next (s.raise opUpdate .invalidState)
  else if s.len.toNat + data.length > lenMax then .next (s.raise opUpdate .counterOverflow)
  else .next ((s.absorb data).respond opUpdate .ok [])

/-- FINALIZE (R150). -/
def execFinalize (s : State) : Host.Outcome State Fault Refusal :=
  if s.lc ≠ .active then .next (s.raise opFinalize .invalidState)
  else .next (s.finalize.respond opFinalize .ok s.finalize.digest.toList)

/-- READ_DIGEST (R155). -/
def execReadDigest (s : State) : Host.Outcome State Fault Refusal :=
  if s.lc ≠ .finalized then .next (s.raise opReadDigest .invalidState)
  else .next (s.respond opReadDigest .ok s.digest.toList)

/-- A descriptor that decodes to `ILLEGAL(op)` (R78, R184): no table row, so no arm of `exec`. -/
def execIllegal (op : Byte) (s : State) : Host.Outcome State Fault Refusal :=
  .next (s.raise op .illegalCommand)

end Sys2Proof.Machine
end

