-- ==== Sys2Proof/Machine/Command.lean ====
section
/-! DEFINITION. One whole command: decode, then execute (R77, R186: decoding comes before anything
else). And what the host puts on the channel to send one. -/

namespace Sys2Proof.Machine

/-- Decode a descriptor with its payload and run what it says. -/
def runCommand (d : Descriptor) (payload : List Byte) (s : State) :
    Host.Outcome State Fault Refusal :=
  match decode d payload with
  | .command i => exec i s
  | .illegal op => execIllegal op s

/-- The next thing the engine does with what it found on its channel. -/
def runFetched (f : Fetched) (s : State) : Host.Outcome State Fault Refusal :=
  match f with
  | .idle => .next s
  | .reset rest => .next (s.applyReset rest)
  | .incomplete => .refused .incompleteCommand
  | .command d payload rest => runCommand d payload (s.withInput rest)

/-- Bytes as the host sends them, in order (R79). -/
def sent (bs : List Byte) : List ChannelItem := bs.map .byte

end Sys2Proof.Machine
end

