-- ==== Sys2Proof/Machine/Step.lean ====
section
/-! DEFINITION. One step: the engine takes the next whole command, or the next reset, from its channel
and completes it (R58), or waits. -/

namespace Sys2Proof.Machine

/-- One step of the engine. -/
def step (s : State) : Host.Outcome State Fault Refusal := runFetched (fetch s.input) s

/-- `s` with the instruction of a table word as all the host has sent. There is no program counter and
no stored program (R21, R62): the engine fetches from its command channel, and this stands for the host
sending that one command (log entry 4). -/
def State.withFetchWord (s : State) (nbits w : Nat) : State :=
  s.withInput (sent (tableWordBytes nbits w))

end Sys2Proof.Machine
end

