-- ==== Sys2Proof/Machine/Assembler.lean ====
section
/-! DEFINITION. The text of a command stream (R84) and the pseudo-commands (R85): what a line means as
commands, the bytes it assembles to, and a reader of the text. Where R84 leaves the text open (blanks,
`;` inside quotes, the number of digits of an identifier) the choice is in log entry 7. -/

namespace Sys2Proof.Machine

/-! ### Pseudo-commands (R85) -/

/-- The most bytes one UPDATE carries, `2^32 - 1` (R72, R85). -/
def maxChunk : Nat := 2 ^ Config.nbytesBits - 1

/-- Consecutive pieces of `k + 1` bytes, the last holding the remainder. `fuel` bounds the loop. -/
def piecesOf (k : Nat) : (fuel : Nat) → (data : List Byte) → List (List Byte)
  | 0, _ => []
  | _ + 1, [] => []
  | fuel + 1, b :: bs => (b :: bs.take k) :: piecesOf k fuel (bs.drop k)

/-- The payloads of the UPDATE commands that `ABSORB data` expands to (R85 (b)). -/
def absorbPieces (data : List Byte) : List (List Byte) :=
  match data with
  | [] => [[]]
  | b :: bs => piecesOf (maxChunk - 1) (b :: bs).length (b :: bs)

/-- `ABSORB data` (R85 (b)). -/
def absorbCommands (data : List Byte) : List Instr := (absorbPieces data).map .update

/-- `HASH data` (R85 (a)). -/
def hashCommands (data : List Byte) : List Instr :=
  .construct algSha256 :: (absorbCommands data ++ [.finalize])

/-- The bytes a line assembles to, where it assembles: a command must be well-formed, and `.raw` must be
followed by exactly the payload its descriptor calls for (R84). -/
def assemble : AsmLine → Option (List Byte)
  | .command i => if i.wf then some (encode i) else none
  | .raw d payload => if payload.length = payloadLen d then some (be64enc d ++ payload) else none
  | .hash data => some ((hashCommands data).flatMap encode)
  | .absorb data => some ((absorbCommands data).flatMap encode)

/-! ### Reading the text (R84) -/

/-- A blank between the parts of a line. -/
def isBlank (c : Char) : Bool := c = ' ' || c = '\t'

/-- The double quote. -/
def quoteChar : Char := Char.ofNat 34

/-- What is left after the blanks in front. -/
def skipBlanks (cs : List Char) : List Char := cs.dropWhile isBlank

/-- Nothing is left but a comment, `;` to the end of the line. -/
def atEnd (cs : List Char) : Bool :=
  match skipBlanks cs with
  | [] => true
  | c :: _ => c = ';'

/-- The characters up to a blank or a comment, and what follows them. -/
def word (cs : List Char) : List Char × List Char :=
  let isWord := fun c => !isBlank c && c != ';'
  ((skipBlanks cs).takeWhile isWord, (skipBlanks cs).dropWhile isWord)

/-- The value of a hexadecimal digit. -/
def hexDigit (c : Char) : Option Nat :=
  if '0' ≤ c ∧ c ≤ '9' then some (c.toNat - '0'.toNat)
  else if 'a' ≤ c ∧ c ≤ 'f' then some (c.toNat - 'a'.toNat + 10)
  else if 'A' ≤ c ∧ c ≤ 'F' then some (c.toNat - 'A'.toNat + 10)
  else none

/-- An even number of hexadecimal digits, as bytes. -/
def hexBytes : List Char → Option (List Byte)
  | [] => some []
  | [_] => none
  | hi :: lo :: cs => do
    let x ← hexDigit hi
    let y ← hexDigit lo
    let bs ← hexBytes cs
    some (BitVec.ofNat 8 (16 * x + y) :: bs)

/-- The ASCII bytes of a quoted string up to its closing quote, no terminator, and what follows it. -/
def quotedBytes : List Char → Option (List Byte × List Char)
  | [] => none
  | c :: cs =>
    if c = quoteChar then some ([], cs)
    else if c.toNat < 128 then
      (quotedBytes cs).map fun r => (BitVec.ofNat 8 c.toNat :: r.1, r.2)
    else none

/-- `hex:` and an even number of digits. -/
def hexOperand (w : List Char) : Option (List Byte) :=
  match w with
  | 'h' :: 'e' :: 'x' :: ':' :: digits => hexBytes digits
  | _ => none

/-- `<data>`, and nothing after it but a comment. -/
def dataOperand (cs : List Char) : Option (List Byte) :=
  match skipBlanks cs with
  | [] => none
  | c :: rest =>
    if c = quoteChar then do
      let (bs, after) ← quotedBytes rest
      if atEnd after then some bs else none
    else
      if atEnd (word cs).2 then hexOperand (word cs).1 else none

/-- `<alg>`: `SHA256`, or `0x` and two hexadecimal digits. -/
def algOperand (cs : List Char) : Option Byte :=
  if !atEnd (word cs).2 then none
  else if (word cs).1 = "SHA256".toList then some algSha256
  else
    match (word cs).1 with
    | ['0', 'x', hi, lo] => do
      let bs ← hexBytes [hi, lo]
      bs.head?
    | _ => none

/-- `<16 hex digits> [hex:<payload>]`, and nothing after it but a comment. -/
def rawOperands (cs : List Char) : Option AsmLine := do
  let bs ← hexBytes (word cs).1
  if bs.length ≠ 8 then none
  else if atEnd (word cs).2 then some (.raw (descriptorOfBytes bs) [])
  else
    let payload ← hexOperand (word (word cs).2).1
    if atEnd (word (word cs).2).2 then some (.raw (descriptorOfBytes bs) payload) else none

/-- What reading one line of text answers. -/
inductive LineRead where
  /-- nothing but blanks and a comment -/
  | empty
  | line (l : AsmLine)
  /-- not a line of R84 or R85 -/
  | bad
  deriving DecidableEq, Repr

/-- A read line, or the report that there is none. -/
def LineRead.ofOption : Option AsmLine → LineRead
  | some l => .line l
  | none => .bad

/-- Read one line of a command stream's text (R84, R85). -/
def readLine (cs : List Char) : LineRead :=
  if atEnd cs then .empty
  else
    let m := (word cs).1
    let rest := (word cs).2
    if m = "CONSTRUCT".toList then .ofOption ((algOperand rest).map fun a => .command (.construct a))
    else if m = "UPDATE".toList then .ofOption ((dataOperand rest).map fun d => .command (.update d))
    else if m = "FINALIZE".toList then
      if atEnd rest then .line (.command .finalize) else .bad
    else if m = "READ_DIGEST".toList then
      if atEnd rest then .line (.command .readDigest) else .bad
    else if m = ".raw".toList then .ofOption (rawOperands rest)
    else if m = "HASH".toList then .ofOption ((dataOperand rest).map .hash)
    else if m = "ABSORB".toList then .ofOption ((dataOperand rest).map .absorb)
    else .bad

end Sys2Proof.Machine
end

