-- ==== Sys2Proof/Machine/System.lean ====
section
/-! DEFINITION. Several engines (R64, R200): replication, each with its own state and its own channels,
nothing shared. -/

namespace Sys2Proof.Machine

/-- `n` engines (R200). They have no identifiers a command could name: the index is the system's. -/
abbrev Engines (n : Nat) := Vector State n

/-- Every engine starts in the reset state (R200). DESIGN CHOICE: every engine starts at the same draw
number, so engines that have drawn equally often hold the same free values, both in the elements R27 gives
no reset value and in the bytes of `BUF` past `BUF_LEN` after an UPDATE or a FINALIZE (R25, R34). The spec
leaves open whether these agree (log entry 15). -/
def Engines.reset (n : Nat) : Engines n := Vector.replicate n State.reset

/-- Engine `k` takes one step (R64). -/
def Engines.stepAt {n : Nat} (es : Engines n) (k : Fin n) :
    Host.Outcome (Engines n) Fault Refusal :=
  match step es[k] with
  | .next t => .next (es.set k t)
  | .fault f => .fault f
  | .refused r => .refused r

end Sys2Proof.Machine
end

