-- ==== Sys2Proof/Safety.lean ====
section
/-! DEFINITION. The terms claims are stated in: the function SHA-256 as the spec gives it (R163), the
invariant of the engine (R24, R25, R26, R31, R34), what an instance has absorbed (R31, R51), what a host
can tell apart (R27, R32, R161), the status a command must report (R186), and what a safe run is. -/

namespace Sys2Proof.Machine

/-! ### The function computed -/

/-- `SHA256(S) = enc(chain(IV, S ++ pad'(S)))` with `z = (55 - len(S)) mod 64` (R163). -/
def sha256Of (m : List Byte) : List Byte :=
  digestBytes (chain sha256.IV
    (m ++ [0x80] ++ List.replicate ((55 - m.length : Int) % 64).toNat 0x00 ++
      be64enc (BitVec.ofNat 64 (8 * m.length))))

/-! ### Invariants -/

/-- What every step keeps, in `ACTIVE` and in `FINALIZED` (R24, R25, R26, R31 (a) and (b), R34). In
`UNCONSTRUCTED` nothing but `LC` has a value the spec speaks of (R27). -/
def State.Inv (s : State) : Prop :=
  (s.lc ≠ .unconstructed → s.alg = algSha256 ∧ s.len.toNat ≤ lenMax) ∧
  (s.lc = .active → s.bufLen.val = s.len.toNat % 64) ∧
  (s.lc = .finalized → s.bufLen.val = 0 ∧ s.digest = encodeDigest s.h)

/-- The instance in `s` is `ACTIVE` and its input message is `m` (R31 (a) to (d), R51). -/
structure State.Absorbed (s : State) (m : List Byte) : Prop where
  active : s.lc = .active
  alg_eq : s.alg = algSha256
  len_eq : s.len.toNat = m.length
  len_le : m.length ≤ lenMax
  bufLen_eq : s.bufLen.val = m.length % 64
  pending_eq : s.pending = m.drop (m.length - m.length % 64)
  h_eq : s.h = chain sha256.IV (m.take (m.length - m.length % 64))

/-! ### What a host can tell apart -/

/-- Two states in which the same elements have the same values, where only the elements a rule reads in
that lifecycle state count (R27, R32, R34, U2): every response from here on is to be the same (R161). -/
structure State.SameView (s t : State) : Prop where
  lc_eq : s.lc = t.lc
  input_eq : s.input = t.input
  output_eq : s.output = t.output
  active_eq : s.lc = .active → s.h = t.h ∧ s.len = t.len ∧ s.pending = t.pending
  digest_eq : s.lc = .finalized → s.digest = t.digest

/-- Two outcomes a host cannot tell apart. -/
def sameOutcome : Host.Outcome State Fault Refusal → Host.Outcome State Fault Refusal → Prop
  | .next s, .next t => s.SameView t
  | .refused r, .refused q => r = q
  | .fault f, .fault g => f = g
  | _, _ => False

/-! ### Status of a command -/

/-- The status a whole command reports: the first of R186's list that applies, else `OK`. -/
def expectedStatus (s : State) (d : Descriptor) (payload : List Byte) : Status :=
  match decode d payload with
  | .illegal _ => .illegalCommand
  | .command (.construct alg) => if alg = algSha256 then .ok else .unsupportedAlgorithm
  | .command (.update data) =>
    if s.lc ≠ .active then .invalidState
    else if s.len.toNat + data.length > lenMax then .counterOverflow else .ok
  | .command .finalize => if s.lc = .active then .ok else .invalidState
  | .command .readDigest => if s.lc = .finalized then .ok else .invalidState

/-- The response to a command of an instance that is `FINALIZED` with digest `digest`, in figures
(R140, R155, R156). A CONSTRUCT is answered according to its algorithm. -/
def finalizedResponse (digest : List Byte) : Instr → Response
  | .construct alg => if alg = 0x01 then ⟨0x01000000, []⟩ else ⟨0x01000001, []⟩
  | .update _ => ⟨0x02000002, []⟩
  | .finalize => ⟨0x03000002, []⟩
  | .readDigest => ⟨0x04000000, digest⟩

/-! ### The command channel -/

/-- `bs` is the beginning of a command and not the whole of one (R70, R76). -/
def ProperPrefix (bs : List Byte) : Prop :=
  bs.length < 8 ∨ bs.length < 8 + payloadLen (descriptorOfBytes (bs.take 8))

/-! ### Work -/

/-- How many compressions a command runs (R162): one for each block it chains. A cost measure only
(R222). -/
def compressions (s : State) : Instr → Nat
  | .construct _ => 0
  | .update data =>
    if s.lc = .active ∧ s.len.toNat + data.length ≤ lenMax then
      (blocksOf (s.pending ++ data)).length
    else 0
  | .finalize => if s.lc = .active then (blocksOf (pad s.pending s.len.toNat)).length else 0
  | .readDigest => 0

/-! ### Runs -/

/-- Run a list of commands, one after the other (R58). -/
def execAll : List Instr → State → Host.Outcome State Fault Refusal
  | [], s => .next s
  | i :: is, s =>
    match exec i s with
    | .next t => execAll is t
    | .fault f => .fault f
    | .refused r => .refused r

/-- Run a list of whole commands, legal or not, each a descriptor with its payload, one after the other
(R58). -/
def runAll : List (Descriptor × List Byte) → State → Host.Outcome State Fault Refusal
  | [], s => .next s
  | c :: cs, s =>
    match runCommand c.1 c.2 s with
    | .next t => runAll cs t
    | .fault f => .fault f
    | .refused r => .refused r

/-- The bytes of a list of whole commands (R70, R79). -/
def commandBytes (cs : List (Descriptor × List Byte)) : List Byte :=
  cs.flatMap fun c => be64enc c.1 ++ c.2

/-- The compressions of a list of commands run one after the other, as far as it runs (R162). -/
def runCompressions : List Instr → State → Nat
  | [], _ => 0
  | i :: is, s =>
    match exec i s with
    | .next t => compressions s i + runCompressions is t
    | .fault _ => 0
    | .refused _ => 0

/-- The commands of one instance fed with `chunks`: `CONSTRUCT SHA256; UPDATE c1; ...; UPDATE cn;
FINALIZE` (R160, R213). -/
def hashRun (chunks : List (List Byte)) : List Instr :=
  .construct algSha256 :: (chunks.map .update ++ [.finalize])

/-- The responses to `hashRun chunks` when every command succeeds and the digest is `digest`. -/
def hashResponses (chunks : List (List Byte)) (digest : List Byte) : List Response :=
  ⟨0x01000000, []⟩ :: (chunks.map (fun _ => ⟨0x02000000, []⟩) ++ [⟨0x03000000, digest⟩])

/-- A run of `n` steps is safe when it ends in a state: no fault and no refusal on the way. -/
def State.SafeRun (s : State) (n : Nat) : Prop := ∃ t, Sys2Proof.core.run n s = .next t

end Sys2Proof.Machine
end

