-- ==== Sys2Proof/Certificates/Slice0/Obligations.lean ====
section
/-! DEFINITION. The statements about the engine, for the provers. Responses are written as the 32-bit
response word of R80 in figures, so that each statement can be held against the spec's own vectors. -/

open Sys2Proof Sys2Proof.Machine

/-! ### Encoding -/

/-- Decoding the bytes of a well-formed command, whatever follows them, gives the command back and leaves
what follows (R70, R74, R76, R77, R79). -/
def Obligations.DecodeInvertsEncode : Prop :=
  ∀ (i : Instr) (rest : List Byte), i.WellFormed → decodeBytes (encode i ++ rest) = .ok (i, rest)

/-- What the decoder accepts is a well-formed command's encoding and nothing else: no bit of an accepted
command is dropped or ignored (R70, R74, R75, R77). -/
def Obligations.EncodeInvertsDecode : Prop :=
  ∀ (bs : List Byte) (i : Instr) (rest : List Byte),
    decodeBytes bs = .ok (i, rest) → i.WellFormed ∧ encode i ++ rest = bs

/-- R78: exactly the descriptors with opcode `0x00` or `0x05` to `0xFF`, or with a nonzero field that R74
requires to be zero, are illegal; running one changes no state and responds `IllegalCommand`. -/
def Obligations.IllegalDescriptorsExactly : Prop :=
  ∀ (d : Descriptor) (p : List Byte),
    (decode d p = .illegal (opcodeOf d) ↔
      opcodeOf d = 0x00 ∨ 0x05 ≤ opcodeOf d ∨ rsvdOf d ≠ 0 ∨
        (opcodeOf d ≠ 0x01 ∧ algOf d ≠ 0) ∨ (opcodeOf d ≠ 0x02 ∧ nbytesOf d ≠ 0)) ∧
    ∀ (op : Byte), decode d p = .illegal op →
      op = opcodeOf d ∧
      ∀ s : State, runCommand d p s =
        .next { s with output := s.output ++ [⟨opcodeOf d ++ (0x000004 : BitVec 24), []⟩] }

/-- R75: the four match and mask pairs describe exactly the descriptors that decode to their commands,
and no descriptor matches two rows. -/
def Obligations.MatchMaskRowsAgreeWithDecode : Prop :=
  opcodeTable.map (fun r => (r.mnemonic, r.matchBits, r.mask)) =
    [("CONSTRUCT", 0x0100000000000000, 0xFF00FFFFFFFFFFFF),
     ("UPDATE", 0x0200000000000000, 0xFFFFFFFF00000000),
     ("FINALIZE", 0x0300000000000000, 0xFFFFFFFFFFFFFFFF),
     ("READ_DIGEST", 0x0400000000000000, 0xFFFFFFFFFFFFFFFF)] ∧
  (∀ (d : Descriptor), ∀ r ∈ opcodeTable, ∀ q ∈ opcodeTable,
    r.covers d = true → q.covers d = true → r = q) ∧
  ∀ (d : Descriptor) (p : List Byte), ∀ r ∈ opcodeTable,
    (r.covers d = true ↔ ∃ i, decode d p = .command i ∧ i.mnemonic = r.mnemonic)

/-- A few command words written out from R74 and R79 decode to the commands they stand for, and a few
malformed ones are rejected (vectors V-D1 to V-D15 of `95_test_vectors.md`). -/
def Obligations.KnownDescriptorsDecode : Prop :=
  decodeBytes [0x01, 0x01, 0, 0, 0, 0, 0, 0] = .ok (.construct 0x01, []) ∧
  decodeBytes [0x01, 0xff, 0, 0, 0, 0, 0, 0] = .ok (.construct 0xff, []) ∧
  decodeBytes [0x02, 0, 0, 0, 0, 0, 0, 0x03, 0x61, 0x62, 0x63, 0x03] =
    .ok (.update [0x61, 0x62, 0x63], [0x03]) ∧
  decodeBytes [0x03, 0, 0, 0, 0, 0, 0, 0] = .ok (.finalize, []) ∧
  decodeBytes [0x04, 0, 0, 0, 0, 0, 0, 0] = .ok (.readDigest, []) ∧
  decodeBytes [0x01, 0x01, 0, 0x01, 0, 0, 0, 0] = .error (.illegal 0x01) ∧
  decodeBytes [0x02, 0x01, 0, 0, 0, 0, 0, 0x02, 0x01, 0x02] = .error (.illegal 0x02) ∧
  decodeBytes [0xff, 0, 0, 0, 0, 0, 0, 0x10] = .error (.illegal 0xff)

/-! ### The command channel -/

/-- When the channel holds the bytes of a well-formed command, a step takes exactly them and is that
command's meaning (R58, R70, R76, R77, R79). The one exception is a reset that strikes before the
response (R211). -/
def Obligations.StepRunsDecodedCommand : Prop :=
  ∀ (s : State) (i : Instr) (rest : List ChannelItem), i.WellFormed →
    rest.head? ≠ some .resetBeforeResponse → s.input = sent (encode i) ++ rest →
    step s = exec i { s with input := rest }

/-- R58: the steps of the engine are the sequential execution of the commands on its channel, legal or
not, in arrival order, each reading the state the one before it left; and the run is safe however long it
goes on, for once every command is answered the engine waits. -/
def Obligations.StepsRunCommandsInArrivalOrder : Prop :=
  ∀ (s : State) (cs : List (Descriptor × List Byte)), (∀ c ∈ cs, c.2.length = payloadLen c.1) →
    s.input = sent (commandBytes cs) →
    Sys2Proof.core.run cs.length s = runAll cs { s with input := [] } ∧ ∀ n, s.SafeRun n

/-- R80 with R76 and R186: whatever descriptor arrives with the payload R76 gives it (`NBYTES` bytes for
opcode `0x02`, none for any other, legal or not), in whatever state, the step completes, takes exactly descriptor and payload from the channel, and sends exactly one response: `ROP`
the opcode, bits 23:8 zero, `STATUS` the first of R186's list that applies, and the 32 digest bytes
exactly for an OK FINALIZE or READ_DIGEST. -/
def Obligations.EveryCommandSendsOneResponse : Prop :=
  ∀ (s : State) (d : Descriptor) (p : List Byte) (rest : List ChannelItem),
    p.length = payloadLen d → rest.head? ≠ some .resetBeforeResponse →
    s.input = sent (be64enc d ++ p) ++ rest →
    payloadLen d = (if opcodeOf d = 0x02 then (d.extractLsb' 0 32).toNat else 0) ∧
    ∃ t r, step s = .next t ∧ t.input = rest ∧ t.output = s.output ++ [r] ∧
      r.rop = opcodeOf d ∧ r.word.extractLsb' 8 16 = 0 ∧
      r.status = (expectedStatus s d p).code ∧
      r.payload = (if r.status = 0x00 ∧ (r.rop = 0x03 ∨ r.rop = 0x04) then t.digest.toList else [])

/-- R188: a command that reports any status other than `OK` writes no state element; the response is all
that changes. -/
def Obligations.ErrorsLeaveNoTrace : Prop :=
  ∀ (s : State) (d : Descriptor) (p : List Byte), expectedStatus s d p ≠ .ok →
    runCommand d p s = .next { s with
      output := s.output ++ [⟨responseWord (opcodeOf d) (expectedStatus s d p), []⟩] }

/-- R181, R182, R183: which command reports which error, and exactly when. The three statuses are the
response's, in figures. Nothing but the response changes with an error (`ErrorsLeaveNoTrace`). -/
def Obligations.EachErrorHasItsCause : Prop :=
  ∀ (i : Instr) (s : State), ∃ t r, exec i s = .next t ∧ t.output = s.output ++ [r] ∧
    (r.status = 0x01 ↔ ∃ alg, i = .construct alg ∧ alg ≠ 0x01) ∧
    (r.status = 0x02 ↔
      (((∃ data, i = .update data) ∨ i = .finalize) ∧ s.lc ≠ .active) ∨
        (i = .readDigest ∧ s.lc ≠ .finalized)) ∧
    (r.status = 0x03 ↔
      ∃ data, i = .update data ∧ s.lc = .active ∧ s.len.toNat + data.length > 2 ^ 61 - 1) ∧
    (r.status = 0x00 ∨ r.status = 0x01 ∨ r.status = 0x02 ∨ r.status = 0x03) ∧
    (r.status ≠ 0x00 → r.payload = [] ∧ t = { s with output := s.output ++ [r] })

/-- R79: a response on a byte channel is the response word, most significant byte first (opcode, two zero
bytes, status), then the payload in order; a command is its descriptor's eight bytes, most significant
first, then its payload. -/
def Obligations.ByteOrderIsMostSignificantFirst : Prop :=
  (∀ (op : Byte) (st : Status) (p : List Byte),
    (Response.mk (responseWord op st) p).toBytes = [op, 0x00, 0x00, st.code] ++ p) ∧
  (∀ i : Instr, encode i = be64enc (encodeDescriptor i) ++ i.payload) ∧
  ∀ (d : Descriptor), (be64enc d).length = 8 ∧ beNat (be64enc d) = d.toNat ∧
    (be64enc d).head? = some (opcodeOf d) ∧ descriptorOfBytes (be64enc d) = d

/-- A reset that strikes between commands (R210) or inside an unfinished command (R211), or after a
command's last byte but before its response (U10), sends no response and leaves nothing of the command:
the engine is `UNCONSTRUCTED`, at a descriptor boundary, its state the same whatever bytes of the command
had arrived. THE MODEL'S CHOICE, no rule of the spec: the elements R27 leaves without a value take the free
values of draw `s.draws` (log entry 1, DESIGN CHOICE); when a reset strikes is an item of the input, and the
responses already sent stay (log entry 5, DEDUCED). -/
def Obligations.ResetAbandonsCommandInProgress : Prop :=
  ∀ (s : State) (bs : List Byte) (item : ChannelItem) (rest : List ChannelItem),
    s.input = sent bs ++ item :: rest →
    ((item = .reset ∨ item = .resetBeforeResponse) ∧ ProperPrefix bs ∨
      item = .resetBeforeResponse ∧ ∃ d p, p.length = payloadLen d ∧ bs = be64enc d ++ p) →
    ∃ t, step s = .next t ∧ t.lc = .unconstructed ∧ t.input = rest ∧ t.output = s.output ∧
      t = { State.resetAt s.draws with input := rest, output := s.output }

/-- With nothing on its channel the engine waits and holds its state (R196, R212). -/
def Obligations.IdleEngineHoldsItsState : Prop :=
  ∀ (s : State), s.input = [] → step s = .next s

/-- The model's engine never faults, and a step is refused in one case only: the channel holds the
beginning of a command, nothing else, and never the rest of it (R214 (a), R215, U8). THE MODEL'S CHOICE, no
rule of the spec: "never faults" is that `Fault` has no constructor (log entry 12, DEDUCED from R187 and
R180); "in one case only" is that of the runs R215 has a model refuse, one in which a descriptor begins
inside a payload is read as payload by R76 (log entry 6, DEDUCED, unsafe for such a host), and one with two
writers cannot be written down (log entry 11, DEDUCED). -/
def Obligations.StepStopsOnlyOnIncompleteCommand : Prop :=
  ∀ (s : State), (∀ f, step s ≠ .fault f) ∧
    ∀ r, (step s = .refused r ↔
      r = .incompleteCommand ∧ ∃ bs, bs ≠ [] ∧ s.input = sent bs ∧ ProperPrefix bs)

/-! ### Reset -/

/-- After reset `LC` is `UNCONSTRUCTED`, nothing has been sent or received, and every command but a
CONSTRUCT of SHA-256 changes nothing (R27, R182, R213). The values of the other elements are the model's
free values (log entry 1): nothing is said of them. -/
def Obligations.ResetLeavesUnconstructed : Prop :=
  State.reset.lc = .unconstructed ∧ State.reset.input = [] ∧ State.reset.output = [] ∧
  ∀ (i : Instr), i ≠ .construct 0x01 →
    ∃ r, exec i State.reset = .next { State.reset with output := [r] } ∧
      r.payload = [] ∧ r.status ≠ 0x00

/-! ### CONSTRUCT -/

/-- R140: the encoding, the effect of CONSTRUCT of SHA-256 from every lifecycle state, the failure of
every other identifier, and of a malformed descriptor. `BUF` and `DIGEST` are not written. -/
def Obligations.ConstructStartsInstance : Prop :=
  (∀ alg : Byte, encodeDescriptor (.construct alg) = (0x01 : Byte) ++ alg ++ (0 : BitVec 48)) ∧
  (∀ s : State, exec (.construct 0x01) s = .next { s with
    alg := 0x01
    h := #v[0x6a09e667, 0xbb67ae85, 0x3c6ef372, 0xa54ff53a,
            0x510e527f, 0x9b05688c, 0x1f83d9ab, 0x5be0cd19]
    bufLen := 0
    len := 0
    lc := .active
    output := s.output ++ [⟨0x01000000, []⟩] }) ∧
  (∀ (alg : Byte) (s : State), alg ≠ 0x01 →
    exec (.construct alg) s = .next { s with output := s.output ++ [⟨0x01000001, []⟩] }) ∧
  ∀ (d : Descriptor) (p : List Byte) (s : State), opcodeOf d = 0x01 →
    (rsvdOf d ≠ 0 ∨ nbytesOf d ≠ 0) →
    runCommand d p s = .next { s with output := s.output ++ [⟨0x01000004, []⟩] }

/-! ### UPDATE -/

/-- R142, R143: a successful UPDATE appends the chunk after the pending bytes in payload order, takes
whole 64-byte blocks from the front, each compressed into the `H` the one before it wrote, and leaves the
rest, fewer than 64 bytes, pending. `LEN` grows by exactly the chunk's length (R144). Its frame: `LC`,
`ALG`, `DIGEST` and the channel are unchanged. -/
def Obligations.UpdateAbsorbsChunk : Prop :=
  ∀ (s : State) (data : List Byte), s.lc = .active → s.len.toNat + data.length ≤ 2 ^ 61 - 1 →
    ∃ (t : State) (blocks : List Block) (tail : List Byte),
      exec (.update data) s = .next t ∧
      s.pending ++ data = blocks.flatMap Vector.toList ++ tail ∧ tail.length < 64 ∧
      t.h = blocks.foldl compress s.h ∧
      t.pending = tail ∧ t.bufLen.val = tail.length ∧ t.bufLen.val = (s.bufLen.val + data.length) % 64 ∧
      t.len.toNat = s.len.toNat + data.length ∧
      t.lc = .active ∧ t.alg = s.alg ∧ t.digest = s.digest ∧ t.input = s.input ∧
      t.output = s.output ++ [⟨0x02000000, []⟩]

/-- A zero-length UPDATE in `ACTIVE` succeeds and changes no state (R56, R141). -/
def Obligations.EmptyUpdateChangesNothing : Prop :=
  ∀ (s : State), s.lc = .active → s.len.toNat ≤ 2 ^ 61 - 1 →
    exec (.update []) s = .next { s with output := s.output ++ [⟨0x02000000, []⟩] }

/-- R145: an UPDATE that would pass `LEN_MAX`, computed without wrap-around, fails with
`CounterOverflow` and leaves the instance `ACTIVE` and unchanged, so that a smaller chunk or FINALIZE
still succeeds; one that reaches `LEN_MAX` exactly succeeds. -/
def Obligations.UpdateFailsPastTheCounterLimit : Prop :=
  ∀ (s : State) (data : List Byte), s.lc = .active →
    (s.len.toNat + data.length > 2 ^ 61 - 1 →
      exec (.update data) s = .next { s with output := s.output ++ [⟨0x02000003, []⟩] } ∧
      (∀ data', s.len.toNat + data'.length ≤ 2 ^ 61 - 1 →
        ∃ u, exec (.update data') { s with output := s.output ++ [⟨0x02000003, []⟩] } = .next u ∧
          u.output = s.output ++ [⟨0x02000003, []⟩, ⟨0x02000000, []⟩]) ∧
      (∃ u, exec .finalize { s with output := s.output ++ [⟨0x02000003, []⟩] } = .next u ∧
        u.output = s.output ++ [⟨0x02000003, []⟩, ⟨0x03000000, u.digest.toList⟩])) ∧
    (s.len.toNat + data.length = 2 ^ 61 - 1 →
      ∃ u, exec (.update data) s = .next u ∧ u.len.toNat = 2 ^ 61 - 1 ∧ u.lc = .active ∧
        u.output = s.output ++ [⟨0x02000000, []⟩])

/-- R147: UPDATE fails with `InvalidState` if the hasher is not `Active`, before any state is written. -/
def Obligations.UpdateNeedsActive : Prop :=
  ∀ (s : State) (data : List Byte), s.lc ≠ .active →
    exec (.update data) s = .next { s with output := s.output ++ [⟨0x02000002, []⟩] }

/-! ### FINALIZE -/

/-- R151: the padding appends `0x80`, then the least number of zero bytes that makes the length 56 modulo
64, then the bit count as eight big-endian bytes. By R152, which the spec derives from R151, the result is
one block when 0 to 55 bytes were pending, two when 56 to 63 were. -/
def Obligations.PaddingFillsOneOrTwoBlocks : Prop :=
  ∀ (tail : List Byte) (L : Nat), tail.length < 64 → L ≤ 2 ^ 61 - 1 →
    ∃ (z : Nat) (field : List Byte),
      pad tail L = tail ++ [0x80] ++ List.replicate z 0x00 ++ field ∧
      field.length = 8 ∧ beNat field = 8 * L ∧
      z = (if tail.length ≤ 55 then 55 - tail.length else 119 - tail.length) ∧
      (tail.length + 1 + z) % 64 = 56 ∧ (∀ y < z, (tail.length + 1 + y) % 64 ≠ 56) ∧
      (pad tail L).length = (if tail.length ≤ 55 then 64 else 128)

/-- R150, R153, R154, and R151 with R152, which the spec derives from it: a FINALIZE in `ACTIVE` compresses
exactly the one or two blocks of the padded tail, in order, latches the eight words of the final state vector, each big-endian, into `DIGEST`,
sends those 32 bytes, and leaves `FINALIZED`, `BUF_LEN = 0`. `ALG`, `LEN` and the channel are
unchanged. -/
def Obligations.FinalizeEmitsDigest : Prop :=
  ∀ (s : State), s.lc = .active →
    ∃ (t : State) (blocks : List Block),
      exec .finalize s = .next t ∧
      blocks.flatMap Vector.toList = pad s.pending s.len.toNat ∧
      blocks.length = (if s.bufLen.val ≤ 55 then 1 else 2) ∧
      t.h = blocks.foldl compress s.h ∧
      t.digest.toList = be32enc t.h[0] ++ be32enc t.h[1] ++ be32enc t.h[2] ++ be32enc t.h[3] ++
        be32enc t.h[4] ++ be32enc t.h[5] ++ be32enc t.h[6] ++ be32enc t.h[7] ∧
      t.lc = .finalized ∧ t.bufLen = 0 ∧ t.alg = s.alg ∧ t.len = s.len ∧ t.input = s.input ∧
      t.output = s.output ++ [⟨0x03000000, t.digest.toList⟩]

/-- FINALIZE before CONSTRUCT, or a second time, fails with `InvalidState` and writes no state
(R150, R182). -/
def Obligations.FinalizeNeedsActive : Prop :=
  ∀ (s : State), s.lc ≠ .active →
    exec .finalize s = .next { s with output := s.output ++ [⟨0x03000002, []⟩] }

/-- R158: when `LEN` is a nonzero multiple of 64, no byte is pending and FINALIZE compresses one block
that is padding alone. -/
def Obligations.AlignedInputStillGetsPaddingBlock : Prop :=
  ∀ (s : State) (m : List Byte), s.Absorbed m → m ≠ [] → m.length % 64 = 0 →
    s.bufLen = 0 ∧ s.pending = [] ∧
    ∃ (t : State) (b : Block), exec .finalize s = .next t ∧ t.h = compress s.h b ∧
      b.toList = 0x80 :: (List.replicate 55 0x00 ++ be64enc (BitVec.ofNat 64 (8 * m.length)))

/-! ### READ_DIGEST -/

/-- R155: READ_DIGEST returns `DIGEST` in `FINALIZED` and fails with `InvalidState` in the other two
lifecycle states and `IllegalCommand` when malformed; it writes no state. -/
def Obligations.ReadDigestReturnsDigest : Prop :=
  encodeDescriptor .readDigest = 0x0400000000000000 ∧
  (∀ s : State, s.lc = .finalized →
    exec .readDigest s = .next { s with output := s.output ++ [⟨0x04000000, s.digest.toList⟩] }) ∧
  (∀ s : State, s.lc = .unconstructed ∨ s.lc = .active →
    exec .readDigest s = .next { s with output := s.output ++ [⟨0x04000002, []⟩] }) ∧
  ∀ (d : Descriptor) (p : List Byte) (s : State), opcodeOf d = 0x04 → d ≠ 0x0400000000000000 →
    runCommand d p s = .next { s with output := s.output ++ [⟨0x04000004, []⟩] }

/-- R156 with R155: in `FINALIZED`, any sequence of UPDATE, FINALIZE and READ_DIGEST commands, and of
CONSTRUCTs of an unsupported algorithm, changes no state: every UPDATE and FINALIZE responds
`InvalidState` and every READ_DIGEST the same 32 bytes. -/
def Obligations.DigestSurvivesMisuse : Prop :=
  ∀ (is : List Instr) (s : State), s.lc = .finalized → .construct 0x01 ∉ is →
    execAll is s =
      .next { s with output := s.output ++ is.map (finalizedResponse s.digest.toList) }

/-! ### The whole machine -/

/-- R22: reset sets `UNCONSTRUCTED`, a successful CONSTRUCT sets `ACTIVE` from any value, a successful
FINALIZE sets `FINALIZED` from `ACTIVE`, and nothing else writes `LC`. -/
def Obligations.OnlyThreeEventsWriteLifecycle : Prop :=
  (∀ (s : State) (rest : List ChannelItem), (s.applyReset rest).lc = .unconstructed) ∧
  (∀ s : State, ∃ t, exec (.construct 0x01) s = .next t ∧ t.lc = .active) ∧
  (∀ s : State, s.lc = .active → ∃ t, exec .finalize s = .next t ∧ t.lc = .finalized) ∧
  ∀ (s t : State), step s = .next t → t.lc ≠ s.lc →
    (∃ rest, fetch s.input = .reset rest ∧ t.lc = .unconstructed) ∨
    (∃ d p rest, fetch s.input = .command d p rest ∧
      (decode d p = .command (.construct 0x01) ∧ t.lc = .active ∨
        decode d p = .command .finalize ∧ s.lc = .active ∧ t.lc = .finalized))

/-- Who writes what (R23, R24, R26, R28, R25): `ALG` is written by CONSTRUCT alone and only with `0x01`;
`H` by CONSTRUCT, UPDATE and FINALIZE; `LEN` by CONSTRUCT, which clears it, and UPDATE; `BUF` and
`BUF_LEN` by CONSTRUCT (which empties), UPDATE and FINALIZE, the bytes by the last two alone; `DIGEST` by
a FINALIZE in `ACTIVE` alone. No command touches what the host has sent or the responses already sent. -/
def Obligations.OnlyNamedCommandsWriteEachElement : Prop :=
  ∀ (i : Instr) (s : State), ∃ t, exec i s = .next t ∧
    (t.alg ≠ s.alg → i = .construct 0x01 ∧ t.alg = 0x01) ∧
    (t.h ≠ s.h → i = .construct 0x01 ∨ ((∃ data, i = .update data) ∨ i = .finalize) ∧ s.lc = .active) ∧
    (t.len ≠ s.len → i = .construct 0x01 ∧ t.len = 0 ∨ (∃ data, i = .update data) ∧ s.lc = .active) ∧
    (t.bufLen ≠ s.bufLen →
      i = .construct 0x01 ∨ ((∃ data, i = .update data) ∨ i = .finalize) ∧ s.lc = .active) ∧
    (t.buf ≠ s.buf → ((∃ data, i = .update data) ∨ i = .finalize) ∧ s.lc = .active) ∧
    (t.digest ≠ s.digest → i = .finalize ∧ s.lc = .active) ∧
    t.input = s.input ∧ ∃ r, t.output = s.output ++ [r]

/-- The invariant of the engine is kept by every step, from every state that meets it
(R24, R25, R26, R31 (a) and (b), R34). -/
def Obligations.InvariantKeptByEveryStep : Prop :=
  ∀ (s t : State), s.Inv → step s = .next t → t.Inv

/-- The invariant holds after reset. -/
def Obligations.InvariantHoldsAtReset : Prop := State.reset.Inv

/-- R31: in `ACTIVE` the engine's `LEN`, `BUF_LEN`, pending bytes and `H` are those of the input message
`M`, the payloads of the successful UPDATEs since the last successful CONSTRUCT (R51): CONSTRUCT starts
with the empty message, a successful UPDATE appends its payload to it, and a command that fails or that
only reads leaves it. -/
def Obligations.ActiveStateTracksInputMessage : Prop :=
  (∀ s : State, ∃ t, exec (.construct 0x01) s = .next t ∧ t.Absorbed []) ∧
  ∀ (s : State) (m : List Byte), s.Absorbed m →
    (∀ data : List Byte, m.length + data.length ≤ 2 ^ 61 - 1 →
      ∃ t, exec (.update data) s = .next t ∧ t.Absorbed (m ++ data)) ∧
    (∀ (d : Descriptor) (p : List Byte), expectedStatus s d p ≠ .ok →
      ∃ t, runCommand d p s = .next t ∧ t.Absorbed m)

/-- R163: a FINALIZE of an instance whose input message is `M` returns `SHA256(M)`. -/
def Obligations.FinalizeReturnsSha256 : Prop :=
  ∀ (s : State) (m : List Byte), s.Absorbed m →
    ∃ t, exec .finalize s = .next t ∧ t.digest.toList = sha256Of m ∧
      t.output = s.output ++ [⟨0x03000000, sha256Of m⟩]

/-- R160: however a byte string is split into UPDATE commands, zero-length ones among them, the digest is
`SHA256` of the whole; and so the same as with one UPDATE. Every command on the way succeeds. -/
def Obligations.ChunkingNeverChangesTheDigest : Prop :=
  ∀ (s : State) (chunks : List (List Byte)), (∀ c ∈ chunks, c.length ≤ 2 ^ 32 - 1) →
    chunks.flatten.length ≤ 2 ^ 61 - 1 →
    ∃ t, execAll (hashRun chunks) s = .next t ∧ t.lc = .finalized ∧
      t.digest.toList = sha256Of chunks.flatten ∧
      t.output = s.output ++ hashResponses chunks (sha256Of chunks.flatten)

/-- The same on the byte channel, from any state whatever: the engine, given the bytes of a CONSTRUCT, of
the UPDATEs and of a FINALIZE, runs that many steps safely, takes every byte and answers one response a
command, the last carrying `SHA256` of the concatenated payloads (R58, R76, R79, R80, R160). -/
def Obligations.ByteChannelRunComputesSha256 : Prop :=
  ∀ (s : State) (chunks : List (List Byte)), (∀ c ∈ chunks, c.length ≤ 2 ^ 32 - 1) →
    chunks.flatten.length ≤ 2 ^ 61 - 1 → s.input = sent ((hashRun chunks).flatMap encode) →
    ∃ t, Sys2Proof.core.run (chunks.length + 2) s = .next t ∧ t.input = [] ∧
      t.output = s.output ++ hashResponses chunks (sha256Of chunks.flatten)

/-- R157: the empty input, with any number of zero-length UPDATEs, is padded to the one block
`80 00 ... 00` and gives the published empty-input digest. -/
def Obligations.EmptyInputGivesPublishedDigest : Prop :=
  pad [] 0 = 0x80 :: List.replicate 63 0x00 ∧
  ∀ (s : State) (k : Nat), ∃ t, execAll (hashRun (List.replicate k [])) s = .next t ∧
    t.output = s.output ++ hashResponses (List.replicate k [])
      [0xe3, 0xb0, 0xc4, 0x42, 0x98, 0xfc, 0x1c, 0x14, 0x9a, 0xfb, 0xf4, 0xc8, 0x99, 0x6f, 0xb9, 0x24,
       0x27, 0xae, 0x41, 0xe4, 0x64, 0x9b, 0x93, 0x4c, 0xa4, 0x95, 0x99, 0x1b, 0x78, 0x52, 0xb8, 0x55]

/-- No response depends on what a rule does not read: two engines that agree on `LC`, on the elements a
rule reads in that lifecycle state and on their channels answer alike for ever, whatever their other
elements hold, the values a reset leaves among them (R27, R32, R161, U1, U2). -/
def Obligations.HiddenValuesAreNeverObserved : Prop :=
  ∀ (n : Nat) (s t : State), s.SameView t →
    sameOutcome (Sys2Proof.core.run n s) (Sys2Proof.core.run n t)

/-- No response depends on the state before CONSTRUCT (R161): after a successful CONSTRUCT two engines
with the same channels are alike, whatever instance each held. -/
def Obligations.ConstructForgetsTheOldInstance : Prop :=
  ∀ (s t : State), s.input = t.input → s.output = t.output →
    ∃ a b, exec (.construct 0x01) s = .next a ∧ exec (.construct 0x01) t = .next b ∧ a.SameView b

/-- R162: an UPDATE that succeeds runs `floor((BUF_LEN + n) / 64)` compressions, a FINALIZE that succeeds
one or two, and a whole instance that hashes `L` bytes `floor(L / 64) + 1 + [L mod 64 >= 56]`, however
they were chunked; a command that fails runs none. -/
def Obligations.CompressionCounts : Prop :=
  (∀ (s : State) (data : List Byte), s.lc = .active → s.len.toNat + data.length ≤ 2 ^ 61 - 1 →
    compressions s (.update data) = (s.bufLen.val + data.length) / 64) ∧
  (∀ (s : State), s.Inv → s.lc = .active →
    compressions s .finalize = if s.len.toNat % 64 ≤ 55 then 1 else 2) ∧
  (∀ (s : State) (i : Instr), expectedStatus s (encodeDescriptor i) i.payload ≠ .ok →
    i.WellFormed → compressions s i = 0) ∧
  ∀ (s : State) (chunks : List (List Byte)), (∀ c ∈ chunks, c.length ≤ 2 ^ 32 - 1) →
    chunks.flatten.length ≤ 2 ^ 61 - 1 →
    runCompressions (hashRun chunks) s =
      chunks.flatten.length / 64 + 1 + (if chunks.flatten.length % 64 ≥ 56 then 1 else 0)

/-- R64: a step of one engine leaves every other engine as it was, and two engines' steps commute. -/
def Obligations.EnginesAreIndependent : Prop :=
  ∀ (n : Nat) (es : Engines n) (j k : Fin n), j ≠ k →
    (∀ es', es.stepAt k = .next es' → es'[j] = es[j] ∧ step es[k] = .next es'[k]) ∧
    ∀ a b, es.stepAt j = .next a → es.stepAt k = .next b →
      ∃ c, a.stepAt k = .next c ∧ b.stepAt j = .next c

/-! ### The Block Compressor -/

/-- R101: each bit of `x` chooses the bit of `y` when 1, of `z` when 0 in `Ch`; each bit of `Maj` is the
majority of the three bits. -/
def Obligations.ChChoosesAndMajIsMajority : Prop :=
  ∀ (x y z : Word) (i : Nat),
    (i < 32 → (chF x y z).getLsbD i = if x.getLsbD i then y.getLsbD i else z.getLsbD i) ∧
    (majF x y z).getLsbD i =
      decide (2 ≤ (x.getLsbD i).toNat + (y.getLsbD i).toNat + (z.getLsbD i).toNat)

/-- R102, R103: the four sigma functions, bit by bit: a rotation right by `n` takes bit `i` from bit
`i + n` modulo 32, a shift right takes it from bit `i + n` and zeros above. -/
def Obligations.SigmaFunctionsBitByBit : Prop :=
  ∀ (x : Word) (i : Nat), i < 32 →
    (bigSigma0 x).getLsbD i =
      (x.getLsbD ((i + 2) % 32) ^^ x.getLsbD ((i + 13) % 32) ^^ x.getLsbD ((i + 22) % 32)) ∧
    (bigSigma1 x).getLsbD i =
      (x.getLsbD ((i + 6) % 32) ^^ x.getLsbD ((i + 11) % 32) ^^ x.getLsbD ((i + 25) % 32)) ∧
    (smallSigma0 x).getLsbD i =
      (x.getLsbD ((i + 7) % 32) ^^ x.getLsbD ((i + 18) % 32) ^^ x.getLsbD (i + 3)) ∧
    (smallSigma1 x).getLsbD i =
      (x.getLsbD ((i + 17) % 32) ^^ x.getLsbD ((i + 19) % 32) ^^ x.getLsbD (i + 10))

/-- R105: the first sixteen schedule words are the block's big-endian words, the other 48 follow the
recurrence. -/
def Obligations.ScheduleFollowsRecurrence : Prop :=
  ∀ (blk : Block),
    (∀ (t : Nat) (ht : t < 16), (schedule blk)[t] =
      be32 blk[4 * t] blk[4 * t + 1] blk[4 * t + 2] blk[4 * t + 3]) ∧
    ∀ (t : Nat) (ht : t < 64) (h16 : 16 ≤ t), (schedule blk)[t] =
      smallSigma1 (schedule blk)[t - 2] + (schedule blk)[t - 7] +
        smallSigma0 (schedule blk)[t - 15] + (schedule blk)[t - 16]

/-- R106, R109: 64 rounds from `Hin`, round `t` with `K[t]` and `W[t]`, every right-hand side read at the
round's start, then the feed-forward sum. -/
def Obligations.CompressIsSixtyFourRounds : Prop :=
  ∀ (H : Vector Word 8) (blk : Block), ∃ v : Nat → Working,
    v 0 = ⟨H[0], H[1], H[2], H[3], H[4], H[5], H[6], H[7]⟩ ∧
    (∀ (t : Nat) (ht : t < 64),
      let T1 := (v t).h + bigSigma1 (v t).e + chF (v t).e (v t).f (v t).g + sha256.K[t] +
        (schedule blk)[t]
      let T2 := bigSigma0 (v t).a + majF (v t).a (v t).b (v t).c
      v (t + 1) =
        ⟨T1 + T2, (v t).a, (v t).b, (v t).c, (v t).d + T1, (v t).e, (v t).f, (v t).g⟩) ∧
    compress H blk =
      #v[H[0] + (v 64).a, H[1] + (v 64).b, H[2] + (v 64).c, H[3] + (v 64).d,
         H[4] + (v 64).e, H[5] + (v 64).f, H[6] + (v 64).g, H[7] + (v 64).h]

/-- R107: `K[t]` is `floor(cbrt(p_t) * 2^32) mod 2^32`, `p_t` the `(t+1)`-th prime. -/
def Obligations.RoundConstantsAreCubeRoots : Prop :=
  ∀ (t : Nat) (ht : t < 64), ∃ c : Nat,
    c ^ 3 ≤ Nat.nth Nat.Prime t * 2 ^ 96 ∧ Nat.nth Nat.Prime t * 2 ^ 96 < (c + 1) ^ 3 ∧
    sha256.K[t].toNat = c % 2 ^ 32

/-- R108: `IV[i]` is `floor(sqrt(p_i) * 2^32) mod 2^32`, `p_i` the `(i+1)`-th prime; and CONSTRUCT loads
`IV` into `H`. -/
def Obligations.InitialVectorIsSquareRoots : Prop :=
  (∀ s : State, ∃ t, exec (.construct 0x01) s = .next t ∧ t.h = sha256.IV) ∧
  ∀ (i : Nat) (hi : i < 8), ∃ c : Nat,
    c ^ 2 ≤ Nat.nth Nat.Prime i * 2 ^ 64 ∧ Nat.nth Nat.Prime i * 2 ^ 64 < (c + 1) ^ 2 ∧
    sha256.IV[i].toNat = c % 2 ^ 32

/-- The compression of the padded block of `"abc"`, the worked example of R110 (V-C1): its schedule's
last word and its result. -/
def Obligations.CompressKnownBlock : Prop :=
  ∀ (blk : Block), blk.toList = [0x61, 0x62, 0x63, 0x80] ++ List.replicate 59 0x00 ++ [0x18] →
    (schedule blk)[63] = 0x12b1edeb ∧
    compress sha256.IV blk =
      #v[0xba7816bf, 0x8f01cfea, 0x414140de, 0x5dae2223, 0xb00361a3, 0x96177a9c, 0xb410ff61, 0xf20015ad]

/-- R146: `chain` of nothing is the state vector itself; of one block and more, `chain` of the rest from
the block's compression. -/
def Obligations.ChainFoldsBlocks : Prop :=
  (∀ H : Vector Word 8, chain H [] = H) ∧
  ∀ (H : Vector Word 8) (b : Block) (x : List Byte), x.length % 64 = 0 →
    chain H (b.toList ++ x) = chain (compress H b) x

/-! ### The text of a command stream -/

/-- R85: `ABSORB` is UPDATEs of consecutive pieces, each but the last of `2^32 - 1` bytes, an empty
`<data>` one empty UPDATE; `HASH` is CONSTRUCT, `ABSORB`, FINALIZE. And what `HASH` computes is `SHA256`
of the data. -/
def Obligations.HashPseudoCommandComputesSha256 : Prop :=
  (∀ data : List Byte, (absorbPieces data).flatten = data ∧ absorbPieces data ≠ [] ∧
    (∀ p ∈ (absorbPieces data).dropLast, p.length = 2 ^ 32 - 1) ∧
    (∀ p ∈ absorbPieces data, p.length ≤ 2 ^ 32 - 1) ∧ (data ≠ [] → [] ∉ absorbPieces data) ∧
    absorbCommands data = (absorbPieces data).map .update ∧
    hashCommands data = [.construct 0x01] ++ absorbCommands data ++ [.finalize]) ∧
  absorbPieces [] = [[]] ∧
  ∀ (s : State) (data : List Byte), data.length ≤ 2 ^ 61 - 1 →
    ∃ t, execAll (hashCommands data) s = .next t ∧ t.digest.toList = sha256Of data

/-- R84: the assembled bytes of the lines the rule gives. -/
def Obligations.AssemblerExamples : Prop :=
  readLine "UPDATE \"abc\"".toList = .line (.command (.update [0x61, 0x62, 0x63])) ∧
  readLine "UPDATE hex:616263 ; the same".toList = .line (.command (.update [0x61, 0x62, 0x63])) ∧
  readLine "UPDATE \"\"".toList = .line (.command (.update [])) ∧
  readLine "CONSTRUCT SHA256".toList = .line (.command (.construct 0x01)) ∧
  readLine "FINALIZE".toList = .line (.command .finalize) ∧
  readLine "READ_DIGEST".toList = .line (.command .readDigest) ∧
  readLine ".raw 0201000000000002 hex:0102".toList =
    .line (.raw 0x0201000000000002 [0x01, 0x02]) ∧
  assemble (.command (.update [0x61, 0x62, 0x63])) =
    some [0x02, 0, 0, 0, 0, 0, 0, 0x03, 0x61, 0x62, 0x63] ∧
  assemble (.command (.update [])) = some [0x02, 0, 0, 0, 0, 0, 0, 0] ∧
  assemble (.command (.construct 0x01)) = some [0x01, 0x01, 0, 0, 0, 0, 0, 0] ∧
  assemble (.command .finalize) = some [0x03, 0, 0, 0, 0, 0, 0, 0] ∧
  assemble (.command .readDigest) = some [0x04, 0, 0, 0, 0, 0, 0, 0] ∧
  assemble (.raw 0x0201000000000002 [0x01]) = none
end

