-- ==== Sys2Proof/Laws/Bits.lean ====
section
/-! SUPPORT. The fields of a descriptor and the big-endian conversions, as numbers (R12, R71, R79). -/

namespace Sys2Proof.Machine


theorem toNat_append_eq {m n : Nat} (x : BitVec m) (y : BitVec n) :
    (x ++ y).toNat = x.toNat * 2 ^ n + y.toNat := by
  rw [BitVec.toNat_append, ← Nat.shiftLeft_add_eq_or_of_lt y.isLt, Nat.shiftLeft_eq]

theorem descriptorOf_toNat (op alg : Byte) (r : BitVec 16) (n : BitVec 32) :
    (descriptorOf op alg r n).toNat =
      op.toNat * 2 ^ 56 + alg.toNat * 2 ^ 48 + r.toNat * 2 ^ 32 + n.toNat := by
  have h : (descriptorOf op alg r n).toNat = _ := toNat_append_eq (op ++ alg ++ r) n
  rw [toNat_append_eq, toNat_append_eq] at h
  rw [h]
  ring

theorem be32_toNat (a b c d : Byte) : (be32 a b c d).toNat = a.toNat * 2^24 + b.toNat * 2^16 + c.toNat * 2^8 + d.toNat := by
  have h : (be32 a b c d).toNat = _ := toNat_append_eq (a ++ b ++ c) d
  rw [toNat_append_eq, toNat_append_eq] at h
  rw [h]
  ring

theorem opcodeOf_toNat (d : Descriptor) : (opcodeOf d).toNat = d.toNat / 2 ^ 56 := by
  have := d.isLt
  simp only [opcodeOf, BitVec.extractLsb'_toNat, Nat.shiftRight_eq_div_pow]
  omega

theorem algOf_toNat (d : Descriptor) : (algOf d).toNat = d.toNat / 2 ^ 48 % 2 ^ 8 := by
  simp only [algOf, BitVec.extractLsb'_toNat, Nat.shiftRight_eq_div_pow]

theorem rsvdOf_toNat (d : Descriptor) : (rsvdOf d).toNat = d.toNat / 2 ^ 32 % 2 ^ 16 := by
  simp only [rsvdOf, BitVec.extractLsb'_toNat, Nat.shiftRight_eq_div_pow]

theorem nbytesOf_toNat (d : Descriptor) : (nbytesOf d).toNat = d.toNat % 2 ^ 32 := by
  simp only [nbytesOf, BitVec.extractLsb'_toNat, Nat.shiftRight_zero]

@[simp] theorem opcodeOf_descriptorOf (op alg : Byte) (r : BitVec 16) (n : BitVec 32) :
    opcodeOf (descriptorOf op alg r n) = op := by
  apply BitVec.eq_of_toNat_eq
  have h1 := op.isLt; have h2 := alg.isLt; have h3 := r.isLt; have h4 := n.isLt
  rw [opcodeOf_toNat, descriptorOf_toNat]; omega

@[simp] theorem algOf_descriptorOf (op alg : Byte) (r : BitVec 16) (n : BitVec 32) :
    algOf (descriptorOf op alg r n) = alg := by
  apply BitVec.eq_of_toNat_eq
  have h1 := op.isLt; have h2 := alg.isLt; have h3 := r.isLt; have h4 := n.isLt
  rw [algOf_toNat, descriptorOf_toNat]; omega

@[simp] theorem rsvdOf_descriptorOf (op alg : Byte) (r : BitVec 16) (n : BitVec 32) :
    rsvdOf (descriptorOf op alg r n) = r := by
  apply BitVec.eq_of_toNat_eq
  have h1 := op.isLt; have h2 := alg.isLt; have h3 := r.isLt; have h4 := n.isLt
  rw [rsvdOf_toNat, descriptorOf_toNat]; omega

@[simp] theorem nbytesOf_descriptorOf (op alg : Byte) (r : BitVec 16) (n : BitVec 32) :
    nbytesOf (descriptorOf op alg r n) = n := by
  apply BitVec.eq_of_toNat_eq
  have h1 := op.isLt; have h2 := alg.isLt; have h3 := r.isLt; have h4 := n.isLt
  rw [nbytesOf_toNat, descriptorOf_toNat]; omega

theorem descriptorOf_fields (d : Descriptor) :
    descriptorOf (opcodeOf d) (algOf d) (rsvdOf d) (nbytesOf d) = d := by
  apply BitVec.eq_of_toNat_eq
  have h := d.isLt
  rw [descriptorOf_toNat, opcodeOf_toNat, algOf_toNat, rsvdOf_toNat, nbytesOf_toNat]; omega

@[simp] theorem beNat_be64enc (n : BitVec 64) : beNat (be64enc n) = n.toNat := by
  simp only [beNat, be64enc, List.foldl, BitVec.extractLsb'_toNat, Nat.shiftRight_eq_div_pow]
  have := n.isLt
  omega

@[simp] theorem be64enc_length (n : BitVec 64) : (be64enc n).length = 8 := rfl

@[simp] theorem descriptorOfBytes_be64enc (d : Descriptor) : descriptorOfBytes (be64enc d) = d := by
  simp [descriptorOfBytes]

theorem be64enc_descriptorOfBytes (b0 b1 b2 b3 b4 b5 b6 b7 : Byte) :
    be64enc (descriptorOfBytes [b0,b1,b2,b3,b4,b5,b6,b7]) = [b0,b1,b2,b3,b4,b5,b6,b7] := by
  have h0 := b0.isLt; have h1 := b1.isLt; have h2 := b2.isLt; have h3 := b3.isLt
  have h4 := b4.isLt; have h5 := b5.isLt; have h6 := b6.isLt; have h7 := b7.isLt
  simp only [be64enc, List.cons.injEq, and_true]
  refine ⟨?_,?_,?_,?_,?_,?_,?_,?_⟩ <;> apply BitVec.eq_of_toNat_eq <;>
    simp only [descriptorOfBytes, beNat, List.foldl, BitVec.extractLsb'_toNat, Nat.shiftRight_eq_div_pow, BitVec.toNat_ofNat] <;> omega

end Sys2Proof.Machine
end

