-- ==== Sys2Proof/Laws/Blocks.lean ====
section
/-! SUPPORT. Cutting a byte sequence into blocks and a tail, chaining, and padding (R143, R146, R151): the
cut is the only one there is, so later proofs cite `cut_unique` and never unfold the loop. -/

namespace Sys2Proof.Machine

theorem firstBlock_toList (p : List Byte) (h : 64 ≤ p.length) : (firstBlock p h).toList = p.take 64 := rfl

theorem cutBlocks_spec : ∀ (fuel : Nat) (p : List Byte), p.length ≤ fuel →
    (cutBlocks fuel p).1.flatMap Vector.toList ++ (cutBlocks fuel p).2 = p ∧
      (cutBlocks fuel p).2.length < 64
  | 0, p, h => by
    have : p = [] := List.eq_nil_of_length_eq_zero (by omega)
    subst this; simp [cutBlocks]
  | fuel + 1, p, h => by
    unfold cutBlocks
    split
    · rename_i hp
      have ih := cutBlocks_spec fuel (p.drop 64) (by simp; omega)
      simp only [List.flatMap_cons, firstBlock_toList, List.append_assoc]
      exact ⟨by rw [ih.1, List.take_append_drop], ih.2⟩
    · rename_i hp
      exact ⟨by simp, by simp; omega⟩

theorem flatMap_blocks_inj : ∀ (bs cs : List Block) (x y : List Byte), x.length < 64 → y.length < 64 →
    bs.flatMap Vector.toList ++ x = cs.flatMap Vector.toList ++ y → bs = cs ∧ x = y
  | [], [], x, y, _, _, h => ⟨rfl, by simpa using h⟩
  | [], c :: cs, x, y, hx, _, h => by
    have := congrArg List.length h
    simp at this; omega
  | b :: bs, [], x, y, _, hy, h => by
    have := congrArg List.length h
    simp at this; omega
  | b :: bs, c :: cs, x, y, hx, hy, h => by
    simp only [List.flatMap_cons, List.append_assoc] at h
    obtain ⟨h1, h2⟩ := List.append_inj h (by simp)
    obtain ⟨rfl, rfl⟩ := flatMap_blocks_inj bs cs x y hx hy h2
    exact ⟨by rw [Vector.toList_inj.mp h1], rfl⟩

theorem flatMap_blocks_length (bs : List Block) : (bs.flatMap Vector.toList).length = 64 * bs.length := by
  induction bs with
  | nil => rfl
  | cons b bs ih => simp only [List.flatMap_cons, List.length_append, Vector.length_toList, ih, List.length_cons]; omega

theorem blocksOf_append_tailOf (p : List Byte) : (blocksOf p).flatMap Vector.toList ++ tailOf p = p :=
  (cutBlocks_spec _ p (Nat.le_refl _)).1

theorem tailOf_length_lt (p : List Byte) : (tailOf p).length < 64 :=
  (cutBlocks_spec _ p (Nat.le_refl _)).2

theorem cut_unique {p : List Byte} {bs : List Block} {x : List Byte} (hx : x.length < 64)
    (h : bs.flatMap Vector.toList ++ x = p) : blocksOf p = bs ∧ tailOf p = x :=
  flatMap_blocks_inj _ _ _ _ (tailOf_length_lt p) hx (by rw [blocksOf_append_tailOf, h])

theorem blocksOf_length (p : List Byte) : (blocksOf p).length = p.length / 64 := by
  have h := congrArg List.length (blocksOf_append_tailOf p)
  have := tailOf_length_lt p
  rw [List.length_append, flatMap_blocks_length] at h
  omega

theorem tailOf_length (p : List Byte) : (tailOf p).length = p.length % 64 := by
  have h := congrArg List.length (blocksOf_append_tailOf p)
  have := tailOf_length_lt p
  rw [List.length_append, flatMap_blocks_length] at h
  omega

theorem tailOf_eq_drop (p : List Byte) : tailOf p = p.drop (p.length - p.length % 64) := by
  have h := blocksOf_append_tailOf p
  have hl : ((blocksOf p).flatMap Vector.toList).length = p.length - p.length % 64 := by
    rw [flatMap_blocks_length, blocksOf_length]; omega
  exact (List.drop_left' hl).symm.trans (congrArg _ h)

theorem blocks_eq_take (p : List Byte) :
    (blocksOf p).flatMap Vector.toList = p.take (p.length - p.length % 64) := by
  have h := blocksOf_append_tailOf p
  have hl : ((blocksOf p).flatMap Vector.toList).length = p.length - p.length % 64 := by
    rw [flatMap_blocks_length, blocksOf_length]; omega
  exact (List.take_left' hl).symm.trans (congrArg _ h)

theorem tailOf_eq_nil {x : List Byte} (hx : x.length % 64 = 0) : tailOf x = [] :=
  List.eq_nil_of_length_eq_zero (by rw [tailOf_length, hx])

theorem blocksOf_append {x : List Byte} (hx : x.length % 64 = 0) (y : List Byte) :
    blocksOf (x ++ y) = blocksOf x ++ blocksOf y ∧ tailOf (x ++ y) = tailOf y := by
  apply cut_unique (tailOf_length_lt y)
  have h := blocksOf_append_tailOf x
  rw [tailOf_eq_nil hx, List.append_nil] at h
  rw [List.flatMap_append, List.append_assoc, blocksOf_append_tailOf, h]

theorem chain_nil (H : Vector Word 8) : chain H [] = H := rfl

theorem chain_append (H : Vector Word 8) {x : List Byte} (hx : x.length % 64 = 0) (y : List Byte) :
    chain H (x ++ y) = chain (chain H x) y := by
  simp only [chain, (blocksOf_append hx y).1, List.foldl_append]

theorem chain_take (H : Vector Word 8) (p : List Byte) :
    chain H p = chain H (p.take (p.length - p.length % 64)) := by
  have h : p.take (p.length - p.length % 64) ++ tailOf p = p := by
    rw [tailOf_eq_drop, List.take_append_drop]
  have hx : (p.take (p.length - p.length % 64)).length % 64 = 0 := by
    rw [List.length_take]; omega
  have ht : blocksOf (tailOf p) = [] :=
    List.eq_nil_of_length_eq_zero (by rw [blocksOf_length]; have := tailOf_length_lt p; omega)
  conv_lhs => rw [← h, chain_append H hx]
  simp only [chain, ht, List.foldl_nil]

theorem padZeros_eq {n : Nat} (h : n < 64) :
    padZeros n = if n ≤ 55 then 55 - n else 119 - n := by
  simp only [padZeros, sha256]; split <;> omega

theorem pad_length {tail : List Byte} (h : tail.length < 64) (L : Nat) :
    (pad tail L).length = if tail.length ≤ 55 then 64 else 128 := by
  simp only [pad, List.length_append, List.length_replicate, be64enc_length, padZeros_eq h,
    List.length_singleton]
  split <;> omega

/-! ### The table of round constants -/

@[simp] theorem rowWords_length (row : BitVec 256) : (rowWords row).length = 8 := by simp [rowWords]

/-- `K[8r + j]` is word `j` of row `r` of the printed table (R107). -/
theorem K_eq_rowWord : ∀ r j : Fin 8,
    sha256.K[8 * r.val + j.val] = (kRows[r.val]'r.isLt).extractLsb' (32 * (7 - j.val)) 32 := by
  decide +kernel

end Sys2Proof.Machine
end

