-- ==== Sys2Proof/Laws/Decode.lean ====
section
/-! SUPPORT. What `decode` and the encoder say of each other, descriptor by descriptor (R74 to R77). -/

namespace Sys2Proof.Machine

theorem payloadLen_encodeDescriptor (i : Instr) (h : i.WellFormed) :
    payloadLen (encodeDescriptor i) = i.payload.length := by
  cases i with
  | update data =>
    have hlt : data.length < 2 ^ 32 := of_decide_eq_true h
    simpa [payloadLen, encodeDescriptor, Instr.payload, BitVec.toNat_ofNat] using hlt
  | construct alg => simp [payloadLen, encodeDescriptor, Instr.payload, opConstruct, opUpdate]
  | finalize => simp [payloadLen, encodeDescriptor, Instr.payload, opFinalize, opUpdate]
  | readDigest => simp [payloadLen, encodeDescriptor, Instr.payload, opReadDigest, opUpdate]

@[simp] theorem opcodeOf_encodeDescriptor (i : Instr) : opcodeOf (encodeDescriptor i) = i.opcode := by
  cases i <;> simp [encodeDescriptor, Instr.opcode]

theorem decode_encodeDescriptor (i : Instr) :
    decode (encodeDescriptor i) i.payload = .command i := by
  cases i <;> simp [decode, encodeDescriptor, Instr.payload, opConstruct, opUpdate, opFinalize, opReadDigest]

/-- Everything `decode` can answer. -/
theorem decode_cases (d : Descriptor) (p : List Byte) :
    (∃ alg, d = descriptorOf 0x01 alg 0 0 ∧ decode d p = .command (.construct alg)) ∨
    (∃ n, d = descriptorOf 0x02 0 0 n ∧ decode d p = .command (.update p)) ∨
    (d = descriptorOf 0x03 0 0 0 ∧ decode d p = .command .finalize) ∨
    (d = descriptorOf 0x04 0 0 0 ∧ decode d p = .command .readDigest) ∨
    (decode d p = .illegal (opcodeOf d)) := by
  have hd := descriptorOf_fields d
  unfold decode
  split
  · rename_i h
    obtain ⟨h1, h2, h3⟩ := h
    exact .inl ⟨algOf d, by rw [← hd, h1, h2, h3]; simp [opConstruct], rfl⟩
  split
  · rename_i h
    obtain ⟨h1, h2, h3⟩ := h
    exact .inr (.inl ⟨nbytesOf d, by rw [← hd, h1, h2, h3]; simp [opUpdate], rfl⟩)
  split
  · rename_i h
    obtain ⟨h1, h2, h3, h4⟩ := h
    exact .inr (.inr (.inl ⟨by rw [← hd, h1, h2, h3, h4]; rfl, rfl⟩))
  split
  · rename_i h
    obtain ⟨h1, h2, h3, h4⟩ := h
    exact .inr (.inr (.inr (.inl ⟨by rw [← hd, h1, h2, h3, h4]; rfl, rfl⟩)))
  · exact .inr (.inr (.inr (.inr rfl)))

/-- A command comes from no descriptor but its own. -/
theorem encodeDescriptor_of_decode {d : Descriptor} {p : List Byte} {i : Instr}
    (hp : p.length = payloadLen d) (h : decode d p = .command i) :
    encodeDescriptor i = d ∧ i.payload = p ∧ i.WellFormed := by
  obtain ⟨alg, rfl, e⟩ | ⟨n, rfl, e⟩ | ⟨rfl, e⟩ | ⟨rfl, e⟩ | e := decode_cases d p <;>
    rw [e] at h <;> cases h
  · refine ⟨rfl, ?_, rfl⟩
    simp [payloadLen, opUpdate] at hp; simp [Instr.payload, hp]
  · simp [payloadLen, opUpdate] at hp
    refine ⟨?_, rfl, ?_⟩
    · simp [encodeDescriptor, hp, opUpdate]
    · simp only [Instr.WellFormed, Instr.wf, hp, decide_eq_true_eq]; exact n.isLt
  · refine ⟨rfl, ?_, rfl⟩
    simp [payloadLen, opUpdate] at hp; simp [Instr.payload, hp]
  · refine ⟨rfl, ?_, rfl⟩
    simp [payloadLen, opUpdate] at hp; simp [Instr.payload, hp]

end Sys2Proof.Machine
end

