-- ==== Sys2Proof/Laws/Channel.lean ====
section
/-! SUPPORT. Taking a command from the channel (R70, R76, R211, R215): what `fetch` answers, and
`channel_cases`, everything a channel can hold. -/

namespace Sys2Proof.Machine


theorem takeBytes_sent (bs : List Byte) (rest : List ChannelItem) :
    takeBytes (sent bs ++ rest) bs.length = .bytes bs rest := by
  induction bs with
  | nil => simp [sent, takeBytes]
  | cons b bs ih =>
    simp only [sent, List.map_cons, List.cons_append, List.length_cons, takeBytes] at ih ⊢
    rw [ih]; rfl

theorem takeBytes_reset (bs : List Byte) (n : Nat) (item : ChannelItem) (rest : List ChannelItem)
    (hi : item = .reset ∨ item = .resetBeforeResponse) (hn : bs.length < n) :
    takeBytes (sent bs ++ item :: rest) n = .reset rest := by
  induction bs generalizing n with
  | nil =>
    obtain ⟨n, rfl⟩ : ∃ k, n = k + 1 := ⟨n - 1, by simp at hn; omega⟩
    obtain rfl | rfl := hi <;> rfl
  | cons b bs ih =>
    obtain ⟨n, rfl⟩ : ∃ k, n = k + 1 := ⟨n - 1, by simp at hn; omega⟩
    simp only [sent, List.map_cons, List.cons_append, takeBytes] at ih ⊢
    rw [ih n (by simpa using hn)]; rfl

theorem takeBytes_short (bs : List Byte) (n : Nat) (hn : bs.length < n) :
    takeBytes (sent bs) n = .short := by
  induction bs generalizing n with
  | nil =>
    obtain ⟨n, rfl⟩ : ∃ k, n = k + 1 := ⟨n - 1, by simp at hn; omega⟩
    rfl
  | cons b bs ih =>
    obtain ⟨n, rfl⟩ : ∃ k, n = k + 1 := ⟨n - 1, by simp at hn; omega⟩
    simp only [sent, List.map_cons, takeBytes] at ih ⊢
    rw [ih n (by simpa using hn)]; rfl

/-- Everything `takeBytes` can answer: the channel begins with the bytes asked for, or with fewer and a
reset, or is nothing but fewer. -/
theorem takeBytes_cases (items : List ChannelItem) (n : Nat) :
    (∃ bs rest, bs.length = n ∧ items = sent bs ++ rest) ∨
    (∃ bs item rest, bs.length < n ∧ (item = .reset ∨ item = .resetBeforeResponse) ∧
      items = sent bs ++ item :: rest) ∨
    (∃ bs, bs.length < n ∧ items = sent bs) := by
  induction n generalizing items with
  | zero => exact .inl ⟨[], items, rfl, rfl⟩
  | succ n ih =>
    match items with
    | [] => exact .inr (.inr ⟨[], by simp, rfl⟩)
    | .reset :: rest => exact .inr (.inl ⟨[], .reset, rest, by simp, .inl rfl, rfl⟩)
    | .resetBeforeResponse :: rest =>
      exact .inr (.inl ⟨[], .resetBeforeResponse, rest, by simp, .inr rfl, rfl⟩)
    | .byte b :: items =>
      obtain ⟨bs, rest, h, rfl⟩ | ⟨bs, item, rest, h, hi, rfl⟩ | ⟨bs, h, rfl⟩ := ih items
      · exact .inl ⟨b :: bs, rest, by simp [h], rfl⟩
      · exact .inr (.inl ⟨b :: bs, item, rest, by simp; omega, hi, rfl⟩)
      · exact .inr (.inr ⟨b :: bs, by simp; omega, rfl⟩)

theorem fetch_of_ne_nil {items : List ChannelItem} (h : items ≠ []) :
    fetch items = match takeBytes items 8 with
      | .bytes bs rest => fetchPayload (descriptorOfBytes bs) rest
      | .reset rest => .reset rest
      | .short => .incomplete := by
  cases items with
  | nil => exact absurd rfl h
  | cons i items => rfl

theorem sent_append (x y : List Byte) : sent (x ++ y) = sent x ++ sent y := List.map_append

theorem commandOrReset_of_head (d : Descriptor) (p : List Byte) (rest : List ChannelItem)
    (h : rest.head? ≠ some .resetBeforeResponse) : commandOrReset d p rest = .command d p rest := by
  match rest with
  | [] => rfl
  | .byte _ :: _ => rfl
  | .reset :: _ => rfl
  | .resetBeforeResponse :: _ => exact absurd rfl h

theorem fetch_sent (d : Descriptor) (p : List Byte) (rest : List ChannelItem)
    (hp : p.length = payloadLen d) :
    fetch (sent (be64enc d ++ p) ++ rest) = commandOrReset d p rest := by
  have h8 := takeBytes_sent (be64enc d) (sent p ++ rest)
  have hp' := takeBytes_sent p rest
  rw [fetch_of_ne_nil (by simp [sent, be64enc])]
  rw [sent_append, List.append_assoc]
  rw [be64enc_length] at h8
  rw [h8, hp] at *
  simp only [fetchPayload, descriptorOfBytes_be64enc, hp']

theorem fetch_command (d : Descriptor) (p : List Byte) (rest : List ChannelItem)
    (hp : p.length = payloadLen d) (h : rest.head? ≠ some .resetBeforeResponse) :
    fetch (sent (be64enc d ++ p) ++ rest) = .command d p rest := by
  rw [fetch_sent d p rest hp, commandOrReset_of_head d p rest h]

theorem be64enc_descriptorOfBytes_of_length {bs : List Byte} (h : bs.length = 8) :
    be64enc (descriptorOfBytes bs) = bs := by
  match bs, h with
  | [b0, b1, b2, b3, b4, b5, b6, b7], _ => exact be64enc_descriptorOfBytes b0 b1 b2 b3 b4 b5 b6 b7

/-- Everything a channel can hold for the engine. -/
theorem channel_cases (items : List ChannelItem) :
    items = [] ∨
    (∃ d p rest, p.length = payloadLen d ∧ items = sent (be64enc d ++ p) ++ rest) ∨
    (∃ bs item rest, ProperPrefix bs ∧ (item = .reset ∨ item = .resetBeforeResponse) ∧
      items = sent bs ++ item :: rest) ∨
    (∃ bs, bs ≠ [] ∧ ProperPrefix bs ∧ items = sent bs) := by
  obtain ⟨bs, rest, h8, rfl⟩ | ⟨bs, item, rest, h, hi, rfl⟩ | ⟨bs, h, rfl⟩ := takeBytes_cases items 8
  · have hbs : be64enc (descriptorOfBytes bs) = bs := be64enc_descriptorOfBytes_of_length h8
    obtain ⟨p, rest, hp, rfl⟩ | ⟨p, item, rest, hp, hi, rfl⟩ | ⟨p, hp, rfl⟩ :=
      takeBytes_cases rest (payloadLen (descriptorOfBytes bs))
    · exact .inr (.inl ⟨descriptorOfBytes bs, p, rest, hp, by rw [hbs, sent_append, List.append_assoc]⟩)
    · refine .inr (.inr (.inl ⟨bs ++ p, item, rest, .inr ?_, hi, by rw [sent_append, List.append_assoc]⟩))
      rw [List.take_left' h8, List.length_append]; omega
    · refine .inr (.inr (.inr ⟨bs ++ p, ?_, .inr ?_, by rw [sent_append]⟩))
      · intro h0; simp [List.append_eq_nil_iff] at h0; simp [h0.1] at h8
      · rw [List.take_left' h8, List.length_append]; omega
  · exact .inr (.inr (.inl ⟨bs, item, rest, .inl h, hi, rfl⟩))
  · by_cases h0 : bs = []
    · exact .inl (by simp [h0, sent])
    · exact .inr (.inr (.inr ⟨bs, h0, .inl h, rfl⟩))

theorem fetch_prefix_reset {bs : List Byte} (h : ProperPrefix bs) (item : ChannelItem)
    (rest : List ChannelItem) (hi : item = .reset ∨ item = .resetBeforeResponse) :
    fetch (sent bs ++ item :: rest) = .reset rest := by
  rw [fetch_of_ne_nil (by simp)]
  by_cases h8 : bs.length < 8
  · rw [takeBytes_reset bs 8 item rest hi h8]
  · have hl : (bs.take 8).length = 8 := by simp; omega
    have hlt : (bs.drop 8).length < payloadLen (descriptorOfBytes (bs.take 8)) := by
      obtain h | h := h
      · omega
      · simp; omega
    have h1 := takeBytes_sent (bs.take 8) (sent (bs.drop 8) ++ item :: rest)
    rw [hl, ← List.append_assoc, ← sent_append, List.take_append_drop] at h1
    rw [h1]
    simp only [fetchPayload, takeBytes_reset _ _ item rest hi hlt]

theorem fetch_prefix_short {bs : List Byte} (h : ProperPrefix bs) (h0 : bs ≠ []) :
    fetch (sent bs) = .incomplete := by
  rw [fetch_of_ne_nil (by simpa [sent] using h0)]
  by_cases h8 : bs.length < 8
  · rw [takeBytes_short bs 8 h8]
  · have hl : (bs.take 8).length = 8 := by simp; omega
    have hlt : (bs.drop 8).length < payloadLen (descriptorOfBytes (bs.take 8)) := by
      obtain h | h := h
      · omega
      · simp; omega
    have h1 := takeBytes_sent (bs.take 8) (sent (bs.drop 8))
    rw [hl, ← sent_append, List.take_append_drop] at h1
    rw [h1]
    simp only [fetchPayload, takeBytes_short _ _ hlt]

end Sys2Proof.Machine
end

