-- ==== Sys2Proof/Laws/State.lean ====
section
/-! SUPPORT. One lemma per field per update of the state, so that no later proof unfolds a record
update. -/

namespace Sys2Proof.Machine

/-! ### `State.respond` -/

@[simp] theorem State.respond_lc (s : State) (op : Byte) (st : Status) (p : List Byte) :
    (s.respond op st p).lc = s.lc := rfl

@[simp] theorem State.respond_alg (s : State) (op : Byte) (st : Status) (p : List Byte) :
    (s.respond op st p).alg = s.alg := rfl

@[simp] theorem State.respond_h (s : State) (op : Byte) (st : Status) (p : List Byte) :
    (s.respond op st p).h = s.h := rfl

@[simp] theorem State.respond_len (s : State) (op : Byte) (st : Status) (p : List Byte) :
    (s.respond op st p).len = s.len := rfl

@[simp] theorem State.respond_buf (s : State) (op : Byte) (st : Status) (p : List Byte) :
    (s.respond op st p).buf = s.buf := rfl

@[simp] theorem State.respond_bufLen (s : State) (op : Byte) (st : Status) (p : List Byte) :
    (s.respond op st p).bufLen = s.bufLen := rfl

@[simp] theorem State.respond_digest (s : State) (op : Byte) (st : Status) (p : List Byte) :
    (s.respond op st p).digest = s.digest := rfl

@[simp] theorem State.respond_input (s : State) (op : Byte) (st : Status) (p : List Byte) :
    (s.respond op st p).input = s.input := rfl

@[simp] theorem State.respond_output (s : State) (op : Byte) (st : Status) (p : List Byte) :
    (s.respond op st p).output = s.output ++ [⟨responseWord op st, p⟩] := rfl

@[simp] theorem State.respond_draws (s : State) (op : Byte) (st : Status) (p : List Byte) :
    (s.respond op st p).draws = s.draws := rfl

/-! ### `State.raise` -/

@[simp] theorem State.raise_lc (s : State) (op : Byte) (e : Status) :
    (s.raise op e).lc = s.lc := rfl

@[simp] theorem State.raise_alg (s : State) (op : Byte) (e : Status) :
    (s.raise op e).alg = s.alg := rfl

@[simp] theorem State.raise_h (s : State) (op : Byte) (e : Status) :
    (s.raise op e).h = s.h := rfl

@[simp] theorem State.raise_len (s : State) (op : Byte) (e : Status) :
    (s.raise op e).len = s.len := rfl

@[simp] theorem State.raise_buf (s : State) (op : Byte) (e : Status) :
    (s.raise op e).buf = s.buf := rfl

@[simp] theorem State.raise_bufLen (s : State) (op : Byte) (e : Status) :
    (s.raise op e).bufLen = s.bufLen := rfl

@[simp] theorem State.raise_digest (s : State) (op : Byte) (e : Status) :
    (s.raise op e).digest = s.digest := rfl

@[simp] theorem State.raise_input (s : State) (op : Byte) (e : Status) :
    (s.raise op e).input = s.input := rfl

@[simp] theorem State.raise_output (s : State) (op : Byte) (e : Status) :
    (s.raise op e).output = s.output ++ [⟨responseWord op e, []⟩] := rfl

@[simp] theorem State.raise_draws (s : State) (op : Byte) (e : Status) :
    (s.raise op e).draws = s.draws := rfl

/-! ### `State.construct` -/

@[simp] theorem State.construct_lc (s : State) (a : Byte) (p : Config.AlgParams 32 8 64) :
    (s.construct a p).lc = .active := rfl

@[simp] theorem State.construct_alg (s : State) (a : Byte) (p : Config.AlgParams 32 8 64) :
    (s.construct a p).alg = a := rfl

@[simp] theorem State.construct_h (s : State) (a : Byte) (p : Config.AlgParams 32 8 64) :
    (s.construct a p).h = p.IV := rfl

@[simp] theorem State.construct_len (s : State) (a : Byte) (p : Config.AlgParams 32 8 64) :
    (s.construct a p).len = 0 := rfl

@[simp] theorem State.construct_buf (s : State) (a : Byte) (p : Config.AlgParams 32 8 64) :
    (s.construct a p).buf = s.buf := rfl

@[simp] theorem State.construct_bufLen (s : State) (a : Byte) (p : Config.AlgParams 32 8 64) :
    (s.construct a p).bufLen = 0 := rfl

@[simp] theorem State.construct_digest (s : State) (a : Byte) (p : Config.AlgParams 32 8 64) :
    (s.construct a p).digest = s.digest := rfl

@[simp] theorem State.construct_input (s : State) (a : Byte) (p : Config.AlgParams 32 8 64) :
    (s.construct a p).input = s.input := rfl

@[simp] theorem State.construct_output (s : State) (a : Byte) (p : Config.AlgParams 32 8 64) :
    (s.construct a p).output = s.output := rfl

@[simp] theorem State.construct_draws (s : State) (a : Byte) (p : Config.AlgParams 32 8 64) :
    (s.construct a p).draws = s.draws := rfl

/-! ### `State.storePending` -/

@[simp] theorem State.storePending_lc (s : State) (tail : List Byte) :
    (s.storePending tail).lc = s.lc := rfl

@[simp] theorem State.storePending_alg (s : State) (tail : List Byte) :
    (s.storePending tail).alg = s.alg := rfl

@[simp] theorem State.storePending_h (s : State) (tail : List Byte) :
    (s.storePending tail).h = s.h := rfl

@[simp] theorem State.storePending_len (s : State) (tail : List Byte) :
    (s.storePending tail).len = s.len := rfl

@[simp] theorem State.storePending_buf (s : State) (tail : List Byte) :
    (s.storePending tail).buf = bufHolding s.draws tail := rfl

@[simp] theorem State.storePending_bufLen (s : State) (tail : List Byte) :
    (s.storePending tail).bufLen = Fin.ofNat 64 tail.length := rfl

@[simp] theorem State.storePending_digest (s : State) (tail : List Byte) :
    (s.storePending tail).digest = s.digest := rfl

@[simp] theorem State.storePending_input (s : State) (tail : List Byte) :
    (s.storePending tail).input = s.input := rfl

@[simp] theorem State.storePending_output (s : State) (tail : List Byte) :
    (s.storePending tail).output = s.output := rfl

@[simp] theorem State.storePending_draws (s : State) (tail : List Byte) :
    (s.storePending tail).draws = s.draws + 1 := rfl

/-! ### `State.finalize` -/

@[simp] theorem State.finalize_lc (s : State) :
    (s.finalize).lc = .finalized := rfl

@[simp] theorem State.finalize_alg (s : State) :
    (s.finalize).alg = s.alg := rfl

@[simp] theorem State.finalize_h (s : State) :
    (s.finalize).h = s.finalH := rfl

@[simp] theorem State.finalize_len (s : State) :
    (s.finalize).len = s.len := rfl

@[simp] theorem State.finalize_buf (s : State) :
    (s.finalize).buf = bufHolding s.draws [] := rfl

@[simp] theorem State.finalize_bufLen (s : State) :
    (s.finalize).bufLen = 0 := rfl

@[simp] theorem State.finalize_digest (s : State) :
    (s.finalize).digest = encodeDigest s.finalH := rfl

@[simp] theorem State.finalize_input (s : State) :
    (s.finalize).input = s.input := rfl

@[simp] theorem State.finalize_output (s : State) :
    (s.finalize).output = s.output := rfl

@[simp] theorem State.finalize_draws (s : State) :
    (s.finalize).draws = s.draws + 1 := rfl

/-! ### `State.applyReset` -/

@[simp] theorem State.applyReset_lc (s : State) (rest : List ChannelItem) :
    (s.applyReset rest).lc = .unconstructed := rfl

@[simp] theorem State.applyReset_alg (s : State) (rest : List ChannelItem) :
    (s.applyReset rest).alg = Config.resetAlg s.draws := rfl

@[simp] theorem State.applyReset_h (s : State) (rest : List ChannelItem) :
    (s.applyReset rest).h = Config.resetH s.draws := rfl

@[simp] theorem State.applyReset_len (s : State) (rest : List ChannelItem) :
    (s.applyReset rest).len = Config.resetLen s.draws := rfl

@[simp] theorem State.applyReset_buf (s : State) (rest : List ChannelItem) :
    (s.applyReset rest).buf = Config.resetBuf s.draws := rfl

@[simp] theorem State.applyReset_bufLen (s : State) (rest : List ChannelItem) :
    (s.applyReset rest).bufLen = Config.resetBufLen s.draws := rfl

@[simp] theorem State.applyReset_digest (s : State) (rest : List ChannelItem) :
    (s.applyReset rest).digest = Config.resetDigest s.draws := rfl

@[simp] theorem State.applyReset_input (s : State) (rest : List ChannelItem) :
    (s.applyReset rest).input = rest := rfl

@[simp] theorem State.applyReset_output (s : State) (rest : List ChannelItem) :
    (s.applyReset rest).output = s.output := rfl

@[simp] theorem State.applyReset_draws (s : State) (rest : List ChannelItem) :
    (s.applyReset rest).draws = s.draws + 1 := rfl

/-! ### `State.withInput` -/

@[simp] theorem State.withInput_lc (s : State) (items : List ChannelItem) :
    (s.withInput items).lc = s.lc := rfl

@[simp] theorem State.withInput_alg (s : State) (items : List ChannelItem) :
    (s.withInput items).alg = s.alg := rfl

@[simp] theorem State.withInput_h (s : State) (items : List ChannelItem) :
    (s.withInput items).h = s.h := rfl

@[simp] theorem State.withInput_len (s : State) (items : List ChannelItem) :
    (s.withInput items).len = s.len := rfl

@[simp] theorem State.withInput_buf (s : State) (items : List ChannelItem) :
    (s.withInput items).buf = s.buf := rfl

@[simp] theorem State.withInput_bufLen (s : State) (items : List ChannelItem) :
    (s.withInput items).bufLen = s.bufLen := rfl

@[simp] theorem State.withInput_digest (s : State) (items : List ChannelItem) :
    (s.withInput items).digest = s.digest := rfl

@[simp] theorem State.withInput_input (s : State) (items : List ChannelItem) :
    (s.withInput items).input = items := rfl

@[simp] theorem State.withInput_output (s : State) (items : List ChannelItem) :
    (s.withInput items).output = s.output := rfl

@[simp] theorem State.withInput_draws (s : State) (items : List ChannelItem) :
    (s.withInput items).draws = s.draws := rfl

/-! ### `State.reset` -/

@[simp] theorem State.reset_lc : State.reset.lc = .unconstructed := rfl

@[simp] theorem State.reset_input : State.reset.input = [] := rfl

@[simp] theorem State.reset_output : State.reset.output = [] := rfl

@[simp] theorem State.reset_draws : State.reset.draws = 1 := rfl

/-! ### `State.absorb` -/

/-- R56: the empty chunk changes no state. -/
@[simp] theorem State.absorb_nil (s : State) : s.absorb [] = s := rfl

@[simp] theorem State.absorb_lc (s : State) (data : List Byte) :
    (s.absorb data).lc = s.lc := by cases data <;> rfl

@[simp] theorem State.absorb_alg (s : State) (data : List Byte) :
    (s.absorb data).alg = s.alg := by cases data <;> rfl

@[simp] theorem State.absorb_digest (s : State) (data : List Byte) :
    (s.absorb data).digest = s.digest := by cases data <;> rfl

@[simp] theorem State.absorb_input (s : State) (data : List Byte) :
    (s.absorb data).input = s.input := by cases data <;> rfl

@[simp] theorem State.absorb_output (s : State) (data : List Byte) :
    (s.absorb data).output = s.output := by cases data <;> rfl

/-! ### What does not read the channels -/

@[simp] theorem State.pending_respond (s : State) (op : Byte) (st : Status) (p : List Byte) :
    (s.respond op st p).pending = s.pending := rfl

@[simp] theorem State.pending_raise (s : State) (op : Byte) (e : Status) :
    (s.raise op e).pending = s.pending := rfl

@[simp] theorem State.pending_withInput (s : State) (items : List ChannelItem) :
    (s.withInput items).pending = s.pending := rfl

@[simp] theorem State.pending_construct (s : State) (a : Byte) (p : Config.AlgParams 32 8 64) :
    (s.construct a p).pending = [] := rfl

end Sys2Proof.Machine
end

