-- ==== Sys2Proof/Laws/Exec.lean ====
section
/-! SUPPORT. What each shared operation and each command does, once: `exec_cases`, `runCommand_cases` and
`step_cases` say everything a command and a step can do; invariants are proved from them. -/

namespace Sys2Proof.Machine


theorem pending_length (s : State) : s.pending.length = s.bufLen.val := by
  have := s.bufLen.isLt
  rw [State.pending, List.length_take, Vector.length_toList]
  omega

theorem pending_storePending (s : State) {tail : List Byte} (h : tail.length < 64) :
    (s.storePending tail).pending = tail := by
  have hb : (Fin.ofNat 64 tail.length).val = tail.length := Nat.mod_eq_of_lt h
  apply List.ext_getElem
  · rw [pending_length]; exact hb
  · intro i h1 h2
    simp [State.pending, State.storePending, bufHolding, List.getElem_take, h2]

theorem bufLen_storePending (s : State) {tail : List Byte} (h : tail.length < 64) :
    (s.storePending tail).bufLen.val = tail.length := Nat.mod_eq_of_lt h

/-- What a successful UPDATE leaves, the empty chunk among the others (R141 to R144). -/
theorem absorb_pending (s : State) (data : List Byte) :
    (s.absorb data).pending = tailOf (s.pending ++ data) := by
  cases data with
  | nil =>
    have h : s.pending.length < 64 := by rw [pending_length]; exact s.bufLen.isLt
    rw [List.append_nil, (cut_unique (bs := []) h (by simp)).2]; rfl
  | cons b bs => exact pending_storePending _ (tailOf_length_lt _)

theorem absorb_h (s : State) (data : List Byte) :
    (s.absorb data).h = chain s.h (s.pending ++ data) := by
  cases data with
  | nil =>
    have h : s.pending.length < 64 := by rw [pending_length]; exact s.bufLen.isLt
    rw [List.append_nil, chain, (cut_unique (bs := []) h (by simp)).1]; rfl
  | cons b bs => rfl

theorem absorb_len (s : State) (data : List Byte) :
    (s.absorb data).len = s.len + BitVec.ofNat 64 data.length := by
  cases data with
  | nil => simp
  | cons b bs => rfl

theorem absorb_len_toNat (s : State) (data : List Byte) (h : s.len.toNat + data.length ≤ lenMax) :
    (s.absorb data).len.toNat = s.len.toNat + data.length := by
  rw [absorb_len, BitVec.toNat_add, BitVec.toNat_ofNat]
  simp only [lenMax] at h
  omega

theorem absorb_bufLen (s : State) (data : List Byte) :
    (s.absorb data).bufLen.val = (s.bufLen.val + data.length) % 64 := by
  rw [← pending_length, absorb_pending, tailOf_length, List.length_append, pending_length]

theorem exec_construct_sha256 (s : State) :
    exec (.construct algSha256) s = .next ((s.construct algSha256 sha256).respond opConstruct .ok []) := rfl

theorem exec_construct_other {alg : Byte} (h : alg ≠ algSha256) (s : State) :
    exec (.construct alg) s = .next (s.raise opConstruct .unsupportedAlgorithm) := by
  simp [exec, execConstruct, paramsOf, h]

theorem exec_update_inactive {s : State} (h : s.lc ≠ .active) (data : List Byte) :
    exec (.update data) s = .next (s.raise opUpdate .invalidState) := by
  simp [exec, execUpdate, h]

theorem exec_update_overflow {s : State} (h : s.lc = .active) {data : List Byte}
    (hl : s.len.toNat + data.length > lenMax) :
    exec (.update data) s = .next (s.raise opUpdate .counterOverflow) := by
  simp [exec, execUpdate, h, hl]

theorem exec_update_ok {s : State} (h : s.lc = .active) {data : List Byte}
    (hl : s.len.toNat + data.length ≤ lenMax) :
    exec (.update data) s = .next ((s.absorb data).respond opUpdate .ok []) := by
  simp [exec, execUpdate, h, Nat.not_lt.mpr hl]

theorem exec_finalize_inactive {s : State} (h : s.lc ≠ .active) :
    exec .finalize s = .next (s.raise opFinalize .invalidState) := by
  simp [exec, execFinalize, h]

theorem exec_finalize_ok {s : State} (h : s.lc = .active) :
    exec .finalize s = .next (s.finalize.respond opFinalize .ok s.finalize.digest.toList) := by
  simp [exec, execFinalize, h]

theorem exec_readDigest_other {s : State} (h : s.lc ≠ .finalized) :
    exec .readDigest s = .next (s.raise opReadDigest .invalidState) := by
  simp [exec, execReadDigest, h]

theorem exec_readDigest_ok {s : State} (h : s.lc = .finalized) :
    exec .readDigest s = .next (s.respond opReadDigest .ok s.digest.toList) := by
  simp [exec, execReadDigest, h]

/-- Everything a command can do: report an error and write nothing, or have its effect. -/
theorem exec_cases (i : Instr) (s : State) :
    (∃ e, e ≠ .ok ∧ exec i s = .next (s.raise i.opcode e)) ∨
    (i = .construct algSha256 ∧
      exec i s = .next ((s.construct algSha256 sha256).respond opConstruct .ok [])) ∨
    (∃ data, i = .update data ∧ s.lc = .active ∧ s.len.toNat + data.length ≤ lenMax ∧
      exec i s = .next ((s.absorb data).respond opUpdate .ok [])) ∨
    (i = .finalize ∧ s.lc = .active ∧
      exec i s = .next (s.finalize.respond opFinalize .ok s.finalize.digest.toList)) ∨
    (i = .readDigest ∧ s.lc = .finalized ∧
      exec i s = .next (s.respond opReadDigest .ok s.digest.toList)) := by
  cases i with
  | construct alg =>
    by_cases h : alg = algSha256
    · subst h; exact .inr (.inl ⟨rfl, exec_construct_sha256 s⟩)
    · exact .inl ⟨.unsupportedAlgorithm, by decide, exec_construct_other h s⟩
  | update data =>
    by_cases h : s.lc = .active
    · by_cases hl : s.len.toNat + data.length ≤ lenMax
      · exact .inr (.inr (.inl ⟨data, rfl, h, hl, exec_update_ok h hl⟩))
      · exact .inl ⟨.counterOverflow, by decide, exec_update_overflow h (Nat.lt_of_not_le hl)⟩
    · exact .inl ⟨.invalidState, by decide, exec_update_inactive h data⟩
  | finalize =>
    by_cases h : s.lc = .active
    · exact .inr (.inr (.inr (.inl ⟨rfl, h, exec_finalize_ok h⟩)))
    · exact .inl ⟨.invalidState, by decide, exec_finalize_inactive h⟩
  | readDigest =>
    by_cases h : s.lc = .finalized
    · exact .inr (.inr (.inr (.inr ⟨rfl, h, exec_readDigest_ok h⟩)))
    · exact .inl ⟨.invalidState, by decide, exec_readDigest_other h⟩

/-- No command reads or writes the command channel: it does the same whatever waits on it (R58). -/
theorem exec_withInput (i : Instr) (s : State) (x : List ChannelItem) :
    ∃ t, exec i s = .next t ∧ exec i (s.withInput x) = .next (t.withInput x) ∧ t.input = s.input := by
  have hlc : (s.withInput x).lc = s.lc := rfl
  have hlen : (s.withInput x).len = s.len := rfl
  cases i with
  | construct a =>
    by_cases h : a = algSha256
    · subst h; exact ⟨_, exec_construct_sha256 s, exec_construct_sha256 _, rfl⟩
    · exact ⟨_, exec_construct_other h s, exec_construct_other h _, rfl⟩
  | update data =>
    by_cases h : s.lc = .active
    · by_cases hl : s.len.toNat + data.length ≤ lenMax
      · refine ⟨_, exec_update_ok h hl, ?_, by simp⟩
        rw [exec_update_ok (hlc.trans h) (by rw [hlen]; exact hl)]
        cases data <;> rfl
      · have hl' := Nat.lt_of_not_le hl
        exact ⟨_, exec_update_overflow h hl', exec_update_overflow (hlc.trans h) hl', rfl⟩
    · exact ⟨_, exec_update_inactive h _, exec_update_inactive (s := s.withInput x) h _, rfl⟩
  | finalize =>
    by_cases h : s.lc = .active
    · exact ⟨_, exec_finalize_ok h, exec_finalize_ok (hlc.trans h), rfl⟩
    · exact ⟨_, exec_finalize_inactive h, exec_finalize_inactive (s := s.withInput x) h, rfl⟩
  | readDigest =>
    by_cases h : s.lc = .finalized
    · exact ⟨_, exec_readDigest_ok h, exec_readDigest_ok (hlc.trans h), rfl⟩
    · exact ⟨_, exec_readDigest_other h, exec_readDigest_other (s := s.withInput x) h, rfl⟩

/-- Everything a whole command can do, legal or not (R77, R78). -/
theorem runCommand_cases (d : Descriptor) (p : List Byte) (s : State) :
    (∃ i, decode d p = .command i ∧ runCommand d p s = exec i s) ∨
    (decode d p = .illegal (opcodeOf d) ∧
      runCommand d p s = .next (s.raise (opcodeOf d) .illegalCommand)) := by
  unfold runCommand
  obtain ⟨_, _, e⟩ | ⟨_, _, e⟩ | ⟨_, e⟩ | ⟨_, e⟩ | e := decode_cases d p <;> rw [e]
  · exact .inl ⟨_, rfl, rfl⟩
  · exact .inl ⟨_, rfl, rfl⟩
  · exact .inl ⟨_, rfl, rfl⟩
  · exact .inl ⟨_, rfl, rfl⟩
  · exact .inr ⟨rfl, rfl⟩

/-- Everything a step can do. -/
theorem step_cases (s : State) :
    (s.input = [] ∧ step s = .next s) ∨
    (∃ rest, fetch s.input = .reset rest ∧ step s = .next (s.applyReset rest)) ∨
    (∃ d p rest, fetch s.input = .command d p rest ∧
      step s = runCommand d p (s.withInput rest)) ∨
    (∃ bs, bs ≠ [] ∧ ProperPrefix bs ∧ s.input = sent bs ∧ step s = .refused .incompleteCommand) := by
  unfold step
  obtain h | ⟨d, p, rest, hp, h⟩ | ⟨bs, item, rest, hb, hi, h⟩ | ⟨bs, h0, hb, h⟩ := channel_cases s.input
  · exact .inl ⟨h, by rw [h]; rfl⟩
  · rw [h, fetch_sent d p rest hp]
    match rest with
    | [] => exact .inr (.inr (.inl ⟨d, p, [], rfl, rfl⟩))
    | .byte b :: r => exact .inr (.inr (.inl ⟨d, p, .byte b :: r, rfl, rfl⟩))
    | .reset :: r => exact .inr (.inr (.inl ⟨d, p, .reset :: r, rfl, rfl⟩))
    | .resetBeforeResponse :: r => exact .inr (.inl ⟨r, rfl, rfl⟩)
  · rw [h, fetch_prefix_reset hb item rest hi]
    exact .inr (.inl ⟨rest, rfl, rfl⟩)
  · rw [h, fetch_prefix_short hb h0]
    exact .inr (.inr (.inr ⟨bs, h0, hb, rfl, rfl⟩))

theorem step_command {s : State} {d : Descriptor} {p : List Byte} {rest : List ChannelItem}
    (hp : p.length = payloadLen d) (hr : rest.head? ≠ some .resetBeforeResponse)
    (h : s.input = sent (be64enc d ++ p) ++ rest) :
    step s = runCommand d p (s.withInput rest) := by
  rw [step, h, fetch_command d p rest hp hr]; rfl

theorem runCommand_encode (i : Instr) (s : State) :
    runCommand (encodeDescriptor i) i.payload s = exec i s := by
  rw [runCommand, decode_encodeDescriptor]

theorem coreRun_succ_of_next (M : Host.Core) {s t : M.State} (h : M.step s = .next t) (n : Nat) :
    M.run (n + 1) s = M.run n t := by simp only [Host.Core.run, h]

theorem coreRun_succ_of_refused (M : Host.Core) {s : M.State} {r : M.Refusal}
    (h : M.step s = .refused r) (n : Nat) : M.run (n + 1) s = .refused r := by
  simp only [Host.Core.run, h]

theorem run_succ_of_next {s t : State} (h : step s = .next t) (n : Nat) :
    Sys2Proof.core.run (n + 1) s = Sys2Proof.core.run n t :=
  coreRun_succ_of_next Sys2Proof.core h n

theorem run_succ_of_refused {s : State} {r : Refusal} (h : step s = .refused r) (n : Nat) :
    Sys2Proof.core.run (n + 1) s = .refused r :=
  coreRun_succ_of_refused Sys2Proof.core h n

end Sys2Proof.Machine
end

