-- ==== Sys2Proof/Laws/PerInstr.lean ====
section
/-! SUPPORT. Statements about every command as syntax, one lemma a constructor. -/

namespace Sys2Proof.Laws

open Sys2Proof.Machine

/-- `Framing`: the descriptor of a well-formed command carries its opcode, no reserved bit, and calls for
exactly the command's payload (R71, R74, R76). -/
def Framing.Statement (i : Instr) : Prop :=
  i.WellFormed → opcodeOf (encodeDescriptor i) = i.opcode ∧ rsvdOf (encodeDescriptor i) = 0 ∧
    payloadLen (encodeDescriptor i) = i.payload.length

theorem Framing.construct (alg : Byte) : Framing.Statement (.construct alg) := fun h =>
  ⟨opcodeOf_encodeDescriptor _, by simp [encodeDescriptor], payloadLen_encodeDescriptor _ h⟩

theorem Framing.update (data : List Byte) : Framing.Statement (.update data) := fun h =>
  ⟨opcodeOf_encodeDescriptor _, by simp [encodeDescriptor], payloadLen_encodeDescriptor _ h⟩

theorem Framing.finalize : Framing.Statement .finalize := fun h =>
  ⟨opcodeOf_encodeDescriptor _, by simp [encodeDescriptor], payloadLen_encodeDescriptor _ h⟩

theorem Framing.readDigest : Framing.Statement .readDigest := fun h =>
  ⟨opcodeOf_encodeDescriptor _, by simp [encodeDescriptor], payloadLen_encodeDescriptor _ h⟩

end Sys2Proof.Laws
end

