-- ==== Sys2Proof/Tests/Slice0.lean ====
section
/-! SUPPORT. Tests of the model on the vectors of `95_test_vectors.md`, named in each comment, the
WellFormed smoke test, and for every obligation with hypotheses a witness that meets them. -/

namespace Sys2Proof.Tests

open Sys2Proof.Machine

/-! ### Helpers -/

/-- One view of the state an outcome answers. -/
def after {α : Type} (o : Host.Outcome State Fault Refusal) (view : State → α) : Option α :=
  match o with
  | .next t => some (view t)
  | _ => none

/-- An `ACTIVE` state with `tail` pending, `LEN = len` and state vector `H`. -/
def activeWith (H : Vector Word 8) (len : BitVec 64) (tail : List Byte) : State :=
  { State.reset with lc := .active, alg := 0x01, h := H, len := len }.storePending tail

/-- A fresh instance that has absorbed `m`, for an `m` of fewer than 64 bytes. -/
def absorbedShort (m : List Byte) : State := activeWith sha256.IV (BitVec.ofNat 64 m.length) m

/-- A `FINALIZED` state that holds the digest of state vector `H`. -/
def finalizedWith (H : Vector Word 8) (len : BitVec 64) : State :=
  { State.reset with
    lc := .finalized
    alg := 0x01
    h := H
    len := len
    bufLen := 0
    digest := encodeDigest H }

/-- The bytes of `"abc"`. -/
def abc : List Byte := [0x61, 0x62, 0x63]

/-- The state vector after `"abc"` is finalized (V-S2, V-C1). -/
def abcH : Vector Word 8 :=
  #v[0xba7816bf, 0x8f01cfea, 0x414140de, 0x5dae2223, 0xb00361a3, 0x96177a9c, 0xb410ff61, 0xf20015ad]

/-- The digest of `"abc"` (V-S2). -/
def abcDigest : List Byte :=
  [0xba, 0x78, 0x16, 0xbf, 0x8f, 0x01, 0xcf, 0xea, 0x41, 0x41, 0x40, 0xde, 0x5d, 0xae, 0x22, 0x23,
   0xb0, 0x03, 0x61, 0xa3, 0x96, 0x17, 0x7a, 0x9c, 0xb4, 0x10, 0xff, 0x61, 0xf2, 0x00, 0x15, 0xad]

/-! ### WellFormed: the one check refuses -/

theorem test_wf_refuses_payload_of_2_pow_32 :
    (Instr.update (List.replicate (2 ^ 32) 0)).wf = false := by
  simp only [Instr.wf, List.length_replicate, Nat.lt_irrefl, decide_false]

/-! ### Decoding, words written out from R71, R74, R75, R79 -/

theorem test_decode_construct :
    decodeBytes [0b00000001, 0b00000001, 0, 0, 0, 0, 0, 0] = .ok (.construct 0x01, []) := by decide +kernel

theorem test_decode_update :
    decodeBytes [0b00000010, 0, 0, 0, 0, 0, 0, 0b00000011, 0x61, 0x62, 0x63] = .ok (.update abc, []) := by
  decide +kernel

theorem test_decode_finalize :
    decodeBytes [0b00000011, 0, 0, 0, 0, 0, 0, 0] = .ok (.finalize, []) := by decide +kernel

theorem test_decode_readDigest :
    decodeBytes [0b00000100, 0, 0, 0, 0, 0, 0, 0] = .ok (.readDigest, []) := by decide +kernel

/-- V-D5, V-D11, V-D13, V-D14. -/
theorem test_decode_illegal :
    decode 0x0101000000000005 [] = .illegal 0x01 ∧ decode 0x0300000000000001 [] = .illegal 0x03 ∧
      decode 0x0000000000000000 [] = .illegal 0x00 ∧ decode 0x0500000000000000 [] = .illegal 0x05 := by
  decide +kernel

/-- V-D9, V-D15: framing reads `NBYTES` of opcode `0x02` alone. -/
theorem test_payloadLen :
    payloadLen 0x02000000ffffffff = 4294967295 ∧ payloadLen 0xff00000000000010 = 0 := by decide +kernel

theorem test_decodeTableWord :
    decodeTableWord 64 0x0102000000000000 = some (.construct 0x02) ∧
      decodeTableWord 64 0x0200000000000002 = some (.update [0, 0]) ∧
      decodeTableWord 64 0x0300000000000000 = some .finalize ∧
      decodeTableWord 64 0x0400000000000000 = some .readDigest ∧
      decodeTableWord 64 0x0400000000000001 = none := by decide +kernel

/-! ### The compressor -/

/-- R107: the ends of the first, a middle and the last row of the printed table. -/
theorem test_K :
    sha256.K[0] = 0x428a2f98 ∧ sha256.K[7] = 0xab1c5ed5 ∧ sha256.K[8] = 0xd807aa98 ∧
      sha256.K[39] = 0x92722c85 ∧ sha256.K[56] = 0x748f82ee ∧ sha256.K[63] = 0xc67178f2 := by
  decide +kernel

/-- V-F5: the four sigma functions. -/
theorem test_sigmas :
    bigSigma0 0x12345678 = 0x66146474 ∧ bigSigma1 0x12345678 = 0x3561abda ∧
      smallSigma0 0x12345678 = 0xe7fce6ee ∧ smallSigma1 0x12345678 = 0xa1f78649 := by decide +kernel

/-- V-F11. -/
theorem test_ch_maj :
    chF 0x510e527f 0x9b05688c 0x1f83d9ab = 0x1f85c98c ∧
      majF 0x510e527f 0x9b05688c 0x1f83d9ab = 0x1b0758af := by decide +kernel

/-- V-C4: every addition wraps. -/
theorem test_compress_all_ones :
    compress (Vector.replicate 8 0xffffffff) (Vector.replicate 64 0xff) =
      #v[0x0598127a, 0xaf11706e, 0x77401fff, 0xd730c549, 0x0b84c867, 0xa98c6ca3, 0xd7f3c0f9, 0x06a78b79] := by
  decide +kernel

/-- The padded tails of V-Z1 (55 bytes) and V-Z2 (56 bytes). -/
theorem test_pad :
    pad (List.replicate 55 0x61) 55 =
        List.replicate 55 0x61 ++ [0x80] ++ [0, 0, 0, 0, 0, 0, 0x01, 0xb8] ∧
      pad (List.replicate 56 0x61) 56 =
        List.replicate 56 0x61 ++ [0x80] ++ List.replicate 63 0 ++ [0, 0, 0, 0, 0, 0, 0x01, 0xc0] := by
  decide +kernel

/-! ### The commands, one step each -/

/-- V-K1, on the channel: the word, the response, the state. -/
theorem test_step_construct_from_reset :
    after (step (State.reset.withFetchWord 64 0x0101000000000000))
        (fun t => (t.lc, t.alg, t.len, t.input, t.output)) =
      some (.active, 0x01, 0, [], [⟨0x01000000, []⟩]) := by decide +kernel

/-- V-K3: a failed CONSTRUCT keeps the instance. -/
theorem test_construct_unsupported_keeps_instance :
    after (exec (.construct 0x02) (absorbedShort abc)) (fun t => (t.lc, t.len, t.pending, t.output)) =
      some (.active, 3, abc, [⟨0x01000001, []⟩]) := by decide +kernel

/-- V-U4, the second UPDATE: one compression, one byte left. -/
theorem test_update_completes_a_block :
    after (exec (.update [0x61, 0x61]) (absorbedShort (List.replicate 63 0x61)))
        (fun t => (t.h, t.len, t.pending, t.output)) =
      some (#v[0xdf5bb81c, 0xe81e0626, 0xfb45a894, 0x4fd40f31,
               0xb25e6816, 0xd6d499c1, 0xab904929, 0x00635e66], 65, [0x61], [⟨0x02000000, []⟩]) := by
  decide +kernel

/-- V-U9. -/
theorem test_update_past_the_limit :
    after (exec (.update [0x02]) (activeWith sha256.IV 0x1fffffffffffffff (List.replicate 63 0)))
        (fun t => (t.lc, t.len, t.bufLen, t.output)) =
      some (.active, 0x1fffffffffffffff, 63, [⟨0x02000003, []⟩]) := by decide +kernel

/-- V-S2. -/
theorem test_finalize_abc :
    after (exec .finalize (absorbedShort abc)) (fun t => (t.lc, t.h, t.bufLen, t.len, t.output)) =
      some (.finalized, abcH, 0, 3, [⟨0x03000000, abcDigest⟩]) := by decide +kernel

/-- Program P4: two final blocks, the length field `ff ff ff ff ff ff ff f8` (V-Z7). -/
theorem test_finalize_at_the_limit :
    after (exec .finalize
        (activeWith sha256.IV 0x1fffffffffffffff (List.replicate 62 0x00 ++ [0x01]))) (fun t => t.h) =
      some #v[0x2e38050b, 0xab2814d1, 0xfcde20a7, 0x734449f6,
              0x6c7f7cce, 0x6b47ec0e, 0xa7995589, 0x926c10f7] := by decide +kernel

/-- V-R3. -/
theorem test_readDigest_after_abc :
    after (exec .readDigest (finalizedWith abcH 3)) (fun t => (t.lc, t.output)) =
      some (.finalized, [⟨0x04000000, abcDigest⟩]) := by decide +kernel

/-- V-R1, on the channel. -/
theorem test_step_readDigest_from_reset :
    after (step (State.reset.withFetchWord 64 0x0400000000000000)) (fun t => (t.lc, t.output)) =
      some (.unconstructed, [⟨0x04000002, []⟩]) := by decide +kernel

/-- V-U12: the payload of an illegal UPDATE is consumed and discarded. -/
theorem test_step_illegal_consumes_payload :
    after (step ((absorbedShort abc).withInput
        (sent [0x02, 0x01, 0, 0, 0, 0, 0, 0x02, 0x01, 0x02] ++ sent [0x03])))
        (fun t => (t.pending, t.input, t.output)) =
      some (abc, sent [0x03], [⟨0x02000004, []⟩]) := by decide +kernel

/-- R211: a reset inside the payload; what follows it starts a descriptor. -/
theorem test_reset_inside_payload :
    after (step ((absorbedShort abc).withInput
        (sent [0x02, 0, 0, 0, 0, 0, 0, 0x02, 0x01] ++ ChannelItem.reset :: sent [0x04])))
        (fun t => (t.lc, t.input, t.output)) = some (.unconstructed, sent [0x04], []) := by decide +kernel

/-- R84, R85. -/
theorem test_read_and_assemble :
    readLine "  HASH \"a\" ; one byte".toList = .line (.hash [0x61]) ∧
      readLine "; nothing".toList = .empty ∧ readLine "UPDATE hex:123".toList = .bad ∧
      assemble (.hash [0x61]) =
        some [1, 1, 0, 0, 0, 0, 0, 0, 2, 0, 0, 0, 0, 0, 0, 1, 0x61, 3, 0, 0, 0, 0, 0, 0, 0] := by
  decide +kernel

/-! ### Witnesses: the hypotheses of each obligation can be met -/

theorem absorbedShort_absorbed_abc : (absorbedShort abc).Absorbed abc :=
  ⟨rfl, rfl, by decide +kernel, by decide +kernel, by decide +kernel, by decide +kernel, by decide +kernel⟩

/-- An instance that has absorbed exactly one block. -/
def alignedState : State := activeWith (chain sha256.IV (List.replicate 64 0x61)) 64 []

theorem witness_AlignedInputStillGetsPaddingBlock :
    alignedState.Absorbed (List.replicate 64 0x61) ∧ (List.replicate 64 (0x61 : Byte)) ≠ [] ∧
      (List.replicate 64 (0x61 : Byte)).length % 64 = 0 :=
  ⟨⟨rfl, rfl, by decide +kernel, by decide +kernel, by decide +kernel, by decide +kernel, rfl⟩, by decide +kernel, by decide +kernel⟩

theorem witness_DecodeInvertsEncode :
    (Instr.construct 0xff).WellFormed ∧ (Instr.update []).WellFormed ∧
      (Instr.update (List.replicate (2 ^ 32 - 1) 0)).WellFormed ∧ Instr.finalize.WellFormed ∧
      Instr.readDigest.WellFormed :=
  ⟨rfl, rfl, by
    simp only [Instr.WellFormed, Instr.wf, List.length_replicate]; decide +kernel, rfl, rfl⟩

theorem witness_EncodeInvertsDecode :
    decodeBytes [0x02, 0, 0, 0, 0, 0, 0, 0x01, 0x61, 0x03] = .ok (.update [0x61], [0x03]) := by decide +kernel

theorem witness_IllegalDescriptorsExactly :
    decode 0x0500000000000000 [] = .illegal 0x05 ∧ decode 0xff00000000000010 [] = .illegal 0xff ∧
      decode 0x0100000000000001 [] = .illegal 0x01 := by decide +kernel

theorem witness_MatchMaskRowsAgreeWithDecode :
    ∃ r ∈ opcodeTable, r.covers 0x02000000ffffffff = true := ⟨_, List.mem_cons_of_mem _ List.mem_cons_self, by decide +kernel⟩

theorem witness_StepRunsDecodedCommand :
    (Instr.update abc).WellFormed ∧
      (sent [0x03]).head? ≠ some .resetBeforeResponse ∧
      (State.reset.withInput (sent (encode (.update abc)) ++ sent [0x03])).input =
        sent (encode (.update abc)) ++ sent [0x03] := by decide +kernel

/-- Four commands, one of them illegal. -/
def fourCommands : List (Descriptor × List Byte) :=
  [(0x0101000000000000, []), (0x0201000000000002, [0x01, 0x02]), (0x0200000000000003, abc),
   (0x0300000000000000, [])]

theorem witness_StepsRunCommandsInArrivalOrder :
    (∀ c ∈ fourCommands, c.2.length = payloadLen c.1) ∧
      (State.reset.withInput (sent (commandBytes fourCommands))).input =
        sent (commandBytes fourCommands) := ⟨by decide +kernel, rfl⟩

theorem witness_EveryCommandSendsOneResponse :
    ([0x01, 0x02] : List Byte).length = payloadLen 0x0201000000000002 ∧
      ([ChannelItem.reset]).head? ≠ some .resetBeforeResponse ∧
      (State.reset.withInput (sent (be64enc 0x0201000000000002 ++ [0x01, 0x02]) ++ [.reset])).input =
        sent (be64enc 0x0201000000000002 ++ [0x01, 0x02]) ++ [.reset] := by decide +kernel

theorem witness_ErrorsLeaveNoTrace :
    expectedStatus State.reset 0x0300000000000000 [] ≠ .ok ∧
      expectedStatus (absorbedShort abc) 0x0102000000000000 [] ≠ .ok ∧
      expectedStatus (activeWith sha256.IV 0x1fffffffffffffff []) 0x0200000000000001 [0x02] ≠ .ok ∧
      expectedStatus (absorbedShort abc) 0x0500000000000000 [] ≠ .ok := by decide +kernel

/-- One byte of a descriptor; a payload one byte short; a whole command whose response is cut off. -/
theorem witness_ResetAbandonsCommandInProgress :
    ((ChannelItem.reset = .reset ∨ ChannelItem.reset = .resetBeforeResponse) ∧ ProperPrefix [0x02]) ∧
      ((ChannelItem.resetBeforeResponse = .reset ∨
          ChannelItem.resetBeforeResponse = .resetBeforeResponse) ∧
        ProperPrefix [0x02, 0, 0, 0, 0, 0, 0, 0x02, 0x01]) ∧
      (ChannelItem.resetBeforeResponse = .resetBeforeResponse ∧
        ∃ (d : Descriptor) (p : List Byte), p.length = payloadLen d ∧
          ([0x03, 0, 0, 0, 0, 0, 0, 0] : List Byte) = be64enc d ++ p) :=
  ⟨⟨.inl rfl, .inl (by decide +kernel)⟩, ⟨.inr rfl, .inr (by decide +kernel)⟩,
    rfl, 0x0300000000000000, [], by decide +kernel, by decide +kernel⟩

theorem witness_IdleEngineHoldsItsState : State.reset.input = [] := rfl

theorem witness_StepStopsOnlyOnIncompleteCommand :
    ([0x02] : List Byte) ≠ [] ∧ (State.reset.withInput (sent [0x02])).input = sent [0x02] ∧
      ProperPrefix [0x02] := ⟨by decide +kernel, rfl, .inl (by decide +kernel)⟩

theorem witness_ResetLeavesUnconstructed : Instr.construct 0x02 ≠ .construct 0x01 := by decide +kernel

theorem witness_ConstructStartsInstance :
    (0x00 : Byte) ≠ 0x01 ∧ (0xff : Byte) ≠ 0x01 ∧ opcodeOf 0x0101000100000000 = 0x01 ∧
      rsvdOf 0x0101000100000000 ≠ 0 ∧ opcodeOf 0x0101000000000005 = 0x01 ∧
      nbytesOf 0x0101000000000005 ≠ 0 := by decide +kernel

/-- Also at the limit itself. -/
theorem witness_UpdateAbsorbsChunk :
    (absorbedShort abc).lc = .active ∧ (absorbedShort abc).len.toNat + abc.length ≤ 2 ^ 61 - 1 ∧
      (activeWith sha256.IV 0x1ffffffffffffffe []).lc = .active ∧
      (activeWith sha256.IV 0x1ffffffffffffffe []).len.toNat + ([0x01] : List Byte).length ≤
        2 ^ 61 - 1 := by decide +kernel

theorem witness_EmptyUpdateChangesNothing :
    (activeWith sha256.IV 0x1fffffffffffffff []).lc = .active ∧
      (activeWith sha256.IV 0x1fffffffffffffff []).len.toNat ≤ 2 ^ 61 - 1 := by decide +kernel

/-- Past the limit by one, with an empty chunk that still fits; and exactly at it. -/
theorem witness_UpdateFailsPastTheCounterLimit :
    (activeWith sha256.IV 0x1fffffffffffffff []).lc = .active ∧
      (activeWith sha256.IV 0x1fffffffffffffff []).len.toNat + ([0x02] : List Byte).length > 2 ^ 61 - 1 ∧
      (activeWith sha256.IV 0x1fffffffffffffff []).len.toNat + ([] : List Byte).length ≤ 2 ^ 61 - 1 ∧
      (activeWith sha256.IV 0x1ffffffffffffffe []).len.toNat + ([0x01] : List Byte).length =
        2 ^ 61 - 1 := by decide +kernel

theorem witness_UpdateNeedsActive :
    State.reset.lc ≠ .active ∧ (finalizedWith abcH 3).lc ≠ .active := by decide +kernel

theorem witness_PaddingFillsOneOrTwoBlocks :
    (List.replicate 63 (0x61 : Byte)).length < 64 ∧ ([] : List Byte).length < 64 ∧
      (List.replicate 55 (0x61 : Byte)).length < 64 ∧ (List.replicate 56 (0x61 : Byte)).length < 64 ∧
      2 ^ 61 - 1 ≤ 2 ^ 61 - 1 := by decide +kernel

/-- With the most bytes pending that fill one block, 55, and the least that fill two, 56 (R152). -/
theorem witness_FinalizeEmitsDigest :
    (absorbedShort abc).lc = .active ∧
      ((absorbedShort (List.replicate 55 0x61)).lc = .active ∧
        (absorbedShort (List.replicate 55 0x61)).bufLen.val = 55) ∧
      (absorbedShort (List.replicate 56 0x61)).lc = .active ∧
        (absorbedShort (List.replicate 56 0x61)).bufLen.val = 56 := by decide +kernel

theorem witness_FinalizeNeedsActive :
    State.reset.lc ≠ .active ∧ (finalizedWith abcH 3).lc ≠ .active := by decide +kernel

theorem witness_ReadDigestReturnsDigest :
    (finalizedWith abcH 3).lc = .finalized ∧ State.reset.lc = .unconstructed ∧
      (absorbedShort abc).lc = .active ∧ opcodeOf 0x0400000000000001 = 0x04 ∧
      (0x0400000000000001 : Descriptor) ≠ 0x0400000000000000 := by decide +kernel

theorem witness_DigestSurvivesMisuse :
    (finalizedWith abcH 3).lc = .finalized ∧
      Instr.construct 0x01 ∉ [Instr.update abc, .finalize, .readDigest, .construct 0x02] := by decide +kernel

/-- A step that makes an instance; a step that is a reset. -/
theorem witness_OnlyThreeEventsWriteLifecycle :
    (∃ t, step (State.reset.withFetchWord 64 0x0101000000000000) = .next t ∧
      t.lc ≠ (State.reset.withFetchWord 64 0x0101000000000000).lc) ∧
    (∃ t, step ((absorbedShort abc).withInput [.reset]) = .next t ∧
      t.lc ≠ ((absorbedShort abc).withInput [.reset]).lc) ∧ (absorbedShort abc).lc = .active :=
  ⟨⟨_, rfl, by decide +kernel⟩, ⟨_, rfl, by decide +kernel⟩, rfl⟩

/-- In each lifecycle state. -/
theorem witness_InvariantKeptByEveryStep :
    State.reset.Inv ∧ (absorbedShort abc).Inv ∧ (finalizedWith abcH 3).Inv ∧
      (∃ t, step State.reset = .next t) ∧ (∃ t, step (absorbedShort abc) = .next t) ∧
      ∃ t, step (finalizedWith abcH 3) = .next t :=
  ⟨⟨fun h => absurd rfl h, fun h => (by cases h), fun h => (by cases h)⟩,
    ⟨fun _ => ⟨rfl, by decide +kernel⟩, fun _ => by decide +kernel, fun h => (by cases h)⟩,
    ⟨fun _ => ⟨rfl, by decide +kernel⟩, fun h => (by cases h), fun _ => ⟨rfl, rfl⟩⟩,
    ⟨_, rfl⟩, ⟨_, rfl⟩, ⟨_, rfl⟩⟩

theorem witness_ActiveStateTracksInputMessage :
    (absorbedShort abc).Absorbed abc ∧ abc.length + ([0x64] : List Byte).length ≤ 2 ^ 61 - 1 ∧
      expectedStatus (absorbedShort abc) 0x0400000000000000 [] ≠ .ok :=
  ⟨absorbedShort_absorbed_abc, by decide +kernel, by decide +kernel⟩

theorem witness_FinalizeReturnsSha256 : (absorbedShort abc).Absorbed abc := absorbedShort_absorbed_abc

/-- The split of V-S5. -/
theorem witness_ChunkingNeverChangesTheDigest :
    (∀ c ∈ ([[0x61], [], [0x62, 0x63]] : List (List Byte)), c.length ≤ 2 ^ 32 - 1) ∧
      ([[0x61], [], [0x62, 0x63]] : List (List Byte)).flatten.length ≤ 2 ^ 61 - 1 := by decide +kernel

theorem witness_ByteChannelRunComputesSha256 :
    (∀ c ∈ ([[0x61], [], [0x62, 0x63]] : List (List Byte)), c.length ≤ 2 ^ 32 - 1) ∧
      ([[0x61], [], [0x62, 0x63]] : List (List Byte)).flatten.length ≤ 2 ^ 61 - 1 ∧
      ((finalizedWith abcH 3).withInput
        (sent ((hashRun [[0x61], [], [0x62, 0x63]]).flatMap encode))).input =
        sent ((hashRun [[0x61], [], [0x62, 0x63]]).flatMap encode) :=
  ⟨by decide +kernel, by decide +kernel, rfl⟩

/-- Two engines alike in what a rule reads and different in what none does: after reset, and in
`FINALIZED`. -/
theorem witness_HiddenValuesAreNeverObserved :
    ({ State.reset with alg := 0, len := 0 }).SameView { State.reset with alg := 1, len := 1 } ∧
      (finalizedWith abcH 3).SameView { finalizedWith abcH 3 with h := sha256.IV, len := 4 } :=
  ⟨⟨rfl, rfl, rfl, fun h => (by cases h), fun h => (by cases h)⟩,
    ⟨rfl, rfl, rfl, fun h => (by cases h), fun _ => rfl⟩⟩

theorem witness_ConstructForgetsTheOldInstance :
    State.reset.input = (absorbedShort abc).input ∧ State.reset.output = (absorbedShort abc).output :=
  ⟨rfl, rfl⟩

theorem witness_CompressionCounts :
    (absorbedShort abc).lc = .active ∧ (absorbedShort abc).Inv ∧
      (absorbedShort abc).len.toNat + abc.length ≤ 2 ^ 61 - 1 ∧
      expectedStatus State.reset (encodeDescriptor .finalize) Instr.finalize.payload ≠ .ok ∧
      Instr.finalize.WellFormed ∧ (∀ c ∈ [abc], c.length ≤ 2 ^ 32 - 1) ∧
      [abc].flatten.length ≤ 2 ^ 61 - 1 :=
  ⟨rfl, ⟨fun _ => ⟨rfl, by decide +kernel⟩, fun _ => by decide +kernel, fun h => (by cases h)⟩, by decide +kernel, by decide +kernel, rfl,
    by decide +kernel, by decide +kernel⟩

theorem witness_EnginesAreIndependent :
    (0 : Fin 2) ≠ 1 ∧ (∃ es', (Engines.reset 2).stepAt 0 = .next es') ∧
      ∃ es', (Engines.reset 2).stepAt 1 = .next es' := ⟨by decide +kernel, ⟨_, rfl⟩, ⟨_, rfl⟩⟩

theorem witness_ChChoosesAndMajIsMajority : 0 < 32 ∧ 31 < 32 := by decide +kernel

theorem witness_SigmaFunctionsBitByBit : 0 < 32 ∧ 31 < 32 := by decide +kernel

theorem witness_ScheduleFollowsRecurrence : 0 < 16 ∧ 15 < 16 ∧ 16 < 64 ∧ 16 ≤ 16 ∧ 63 < 64 := by decide +kernel

theorem witness_CompressIsSixtyFourRounds : 0 < 64 ∧ 63 < 64 := by decide +kernel

theorem witness_RoundConstantsAreCubeRoots : 0 < 64 ∧ 63 < 64 := by decide +kernel

theorem witness_InitialVectorIsSquareRoots : 0 < 8 ∧ 7 < 8 := by decide +kernel

theorem witness_CompressKnownBlock : ∃ blk : Block,
    blk.toList = [0x61, 0x62, 0x63, 0x80] ++ List.replicate 59 0x00 ++ [0x18] :=
  ⟨⟨([0x61, 0x62, 0x63, 0x80] ++ List.replicate 59 0x00 ++ [0x18] : List Byte).toArray, rfl⟩, rfl⟩

theorem witness_ChainFoldsBlocks : (List.replicate 64 (0x00 : Byte)).length % 64 = 0 := by decide +kernel

theorem witness_HashPseudoCommandComputesSha256 :
    ([0x61] : List Byte) ≠ [] ∧ ([0x61] : List Byte).length ≤ 2 ^ 61 - 1 := by decide +kernel

end Sys2Proof.Tests
end

/-! SUPPORT. The family `10_state.md`: what the status word says, what the engine's operations keep of the
invariant, of the input message and of the host's view, and the obligations that follow. -/

namespace Sys2Proof.Machine

/-! ### Responses and statuses -/

@[simp] theorem Response.status_responseWord (op : Byte) (st : Status) (p : List Byte) :
    (Response.mk (responseWord op st) p).status = st.code :=
  BitVec.extractLsb'_append_eq_right

theorem Status.code_eq_zero_iff (e : Status) : e.code = 0x00 ↔ e = .ok := by
  cases e <;> decide

/-- R186, R188: a whole command whose status is not `OK` reports that status and writes nothing. -/
theorem runCommand_of_expectedStatus_ne_ok {s : State} {d : Descriptor} {p : List Byte}
    (h : expectedStatus s d p ≠ .ok) :
    runCommand d p s = .next (s.raise (opcodeOf d) (expectedStatus s d p)) := by
  obtain ⟨alg, rfl, hd⟩ | ⟨n, rfl, hd⟩ | ⟨rfl, hd⟩ | ⟨rfl, hd⟩ | hd := decode_cases d p <;>
    simp only [expectedStatus, runCommand, hd, opcodeOf_descriptorOf] at h ⊢
  case inl =>
    have halg : alg ≠ algSha256 := fun ha => h (if_pos ha)
    rw [exec_construct_other halg, if_neg halg]; rfl
  case inr.inl =>
    by_cases hlc : s.lc = .active
    · have hl : s.len.toNat + p.length > lenMax := by
        by_contra hl; exact h (by rw [if_neg (not_not.mpr hlc), if_neg hl])
      rw [exec_update_overflow hlc hl, if_neg (not_not.mpr hlc), if_pos hl]; rfl
    · rw [exec_update_inactive hlc, if_pos hlc]; rfl
  case inr.inr.inl =>
    have hlc : s.lc ≠ .active := fun hlc => h (if_pos hlc)
    rw [exec_finalize_inactive hlc, if_neg hlc]; rfl
  case inr.inr.inr.inl =>
    have hlc : s.lc ≠ .finalized := fun hlc => h (if_pos hlc)
    rw [exec_readDigest_other hlc, if_neg hlc]; rfl
  case inr.inr.inr.inr => rfl

/-! ### The invariant -/

/-- In `UNCONSTRUCTED` the invariant claims nothing (R27). -/
theorem State.Inv.of_unconstructed {s : State} (h : s.lc = .unconstructed) : s.Inv := by
  simp [State.Inv, h]

@[simp] theorem State.inv_respond (s : State) (op : Byte) (st : Status) (p : List Byte) :
    (s.respond op st p).Inv ↔ s.Inv := Iff.rfl

@[simp] theorem State.inv_raise (s : State) (op : Byte) (e : Status) :
    (s.raise op e).Inv ↔ s.Inv := Iff.rfl

@[simp] theorem State.inv_withInput (s : State) (items : List ChannelItem) :
    (s.withInput items).Inv ↔ s.Inv := Iff.rfl

theorem State.inv_construct (s : State) (p : Config.AlgParams 32 8 64) :
    (s.construct algSha256 p).Inv := by
  simp [State.Inv]

/-- `BUF_LEN` stays `LEN` modulo 64 because both grow by the chunk's length (R144). -/
theorem State.Inv.absorb {s : State} (hs : s.Inv) (hlc : s.lc = .active) {data : List Byte}
    (hl : s.len.toNat + data.length ≤ lenMax) : (s.absorb data).Inv := by
  obtain ⟨hkept, hactive, -⟩ := hs
  have halg := (hkept (by simp [hlc])).1
  have hbuf := hactive hlc
  simp only [State.Inv, absorb_lc, absorb_alg, absorb_bufLen, absorb_len_toNat s data hl, hlc]
  exact ⟨fun _ => ⟨halg, hl⟩, fun _ => by omega, nofun⟩

theorem State.Inv.finalize {s : State} (hs : s.Inv) (hlc : s.lc = .active) : s.finalize.Inv := by
  obtain ⟨hkept, -, -⟩ := hs
  exact ⟨fun _ => hkept (by simp [hlc]), nofun, fun _ => ⟨rfl, rfl⟩⟩

theorem exec_preserves_inv {i : Instr} {s t : State} (hs : s.Inv) (ht : exec i s = .next t) :
    t.Inv := by
  obtain ⟨e, -, h⟩ | ⟨-, h⟩ | ⟨data, -, hlc, hl, h⟩ | ⟨-, hlc, h⟩ | ⟨-, -, h⟩ := exec_cases i s <;>
    obtain rfl := Host.Outcome.next.inj (h.symm.trans ht)
  case inl => simpa using hs
  case inr.inl => simpa using s.inv_construct sha256
  case inr.inr.inl => simpa using hs.absorb hlc hl
  case inr.inr.inr.inl => simpa using hs.finalize hlc
  case inr.inr.inr.inr => simpa using hs

theorem runCommand_preserves_inv {d : Descriptor} {p : List Byte} {s t : State} (hs : s.Inv)
    (ht : runCommand d p s = .next t) : t.Inv := by
  obtain ⟨i, -, h⟩ | ⟨-, h⟩ := runCommand_cases d p s
  · exact exec_preserves_inv hs (h.symm.trans ht)
  · obtain rfl := Host.Outcome.next.inj (h.symm.trans ht)
    exact hs

/-- Settles O29, from `step_cases`: waiting changes nothing, a reset leaves `UNCONSTRUCTED`, and a command is
`runCommand_preserves_inv`. -/
theorem invariantKeptByEveryStep : Obligations.InvariantKeptByEveryStep := by
  intro s t hs ht
  obtain ⟨-, h⟩ | ⟨rest, -, h⟩ | ⟨d, p, rest, -, h⟩ | ⟨_, _, _, _, h⟩ := step_cases s <;>
    rw [h] at ht
  · obtain rfl := Host.Outcome.next.inj ht
    exact hs
  · obtain rfl := Host.Outcome.next.inj ht
    exact .of_unconstructed rfl
  · exact runCommand_preserves_inv ((s.inv_withInput rest).mpr hs) ht
  · cases ht

/-- Settles O30: after reset `LC` is `UNCONSTRUCTED`. -/
theorem invariantHoldsAtReset : Obligations.InvariantHoldsAtReset :=
  .of_unconstructed State.reset_lc

/-! ### The input message -/

theorem State.Absorbed.respond {s : State} {m : List Byte} (h : s.Absorbed m) (op : Byte) (st : Status)
    (p : List Byte) : (s.respond op st p).Absorbed m :=
  { h with }

theorem State.absorbed_nil_construct (s : State) : (s.construct algSha256 sha256).Absorbed [] where
  active := rfl
  alg_eq := rfl
  len_eq := rfl
  len_le := Nat.zero_le _
  bufLen_eq := rfl
  pending_eq := s.pending_construct algSha256 sha256
  h_eq := rfl

theorem take_append_tailOf (m : List Byte) : m.take (m.length - m.length % 64) ++ tailOf m = m := by
  rw [tailOf_eq_drop, List.take_append_drop]

theorem length_take_blocks_mod (m : List Byte) :
    (m.take (m.length - m.length % 64)).length % 64 = 0 := by
  rw [List.length_take]; omega

/-- Data after the pending bytes of `m` leave the same bytes pending as data after all of `m` (R143). -/
theorem tailOf_tailOf_append (m data : List Byte) : tailOf (tailOf m ++ data) = tailOf (m ++ data) := by
  rw [← (blocksOf_append (length_take_blocks_mod m) (tailOf m ++ data)).2, ← List.append_assoc,
    take_append_tailOf]

/-- Chaining the whole blocks of `m` first and the rest with the data later is chaining it all (R146). -/
theorem chain_take_tailOf_append (H : Vector Word 8) (m data : List Byte) :
    chain (chain H (m.take (m.length - m.length % 64))) (tailOf m ++ data) = chain H (m ++ data) := by
  rw [← chain_append H (length_take_blocks_mod m), ← List.append_assoc, take_append_tailOf]

/-- R31, R51: a successful UPDATE appends its payload to the input message. -/
theorem State.Absorbed.absorb {s : State} {m data : List Byte} (h : s.Absorbed m)
    (hl : m.length + data.length ≤ lenMax) : (s.absorb data).Absorbed (m ++ data) := by
  have hpend : s.pending = tailOf m := h.pending_eq.trans (tailOf_eq_drop m).symm
  have hlen : (s.absorb data).len.toNat = (m ++ data).length := by
    rw [absorb_len_toNat s data (by rw [h.len_eq]; exact hl), h.len_eq, List.length_append]
  exact
    { active := by simp [h.active]
      alg_eq := by simp [h.alg_eq]
      len_eq := hlen
      len_le := by simpa using hl
      bufLen_eq := by rw [absorb_bufLen, h.bufLen_eq, List.length_append, Nat.mod_add_mod]
      pending_eq := by rw [absorb_pending, hpend, tailOf_tailOf_append, tailOf_eq_drop]
      h_eq := by rw [absorb_h, h.h_eq, hpend, chain_take_tailOf_append, chain_take] }

/-- Settles O31: each of the three clauses is what one operation does to the message. -/
theorem activeStateTracksInputMessage : Obligations.ActiveStateTracksInputMessage := by
  refine ⟨fun s => ⟨_, exec_construct_sha256 s, s.absorbed_nil_construct.respond _ _ _⟩,
    fun s m hm => ⟨fun data hl => ?_, fun d p he => ?_⟩⟩
  · have hl' : s.len.toNat + data.length ≤ lenMax := by rw [hm.len_eq]; exact hl
    exact ⟨_, exec_update_ok hm.active hl', (hm.absorb hl).respond _ _ _⟩
  · exact ⟨_, runCommand_of_expectedStatus_ne_ok he, hm.respond _ _ _⟩

/-! ### What a host can tell apart -/

theorem State.SameView.respond {s t : State} (h : s.SameView t) (op : Byte) (st : Status) (p : List Byte) :
    (s.respond op st p).SameView (t.respond op st p) :=
  { h with output_eq := by simp [h.output_eq] }

theorem State.SameView.withInput {s t : State} (h : s.SameView t) (items : List ChannelItem) :
    (s.withInput items).SameView (t.withInput items) :=
  { h with input_eq := rfl }

/-- The values a reset leaves are in no view (R27). -/
theorem State.SameView.applyReset {s t : State} (h : s.SameView t) (rest : List ChannelItem) :
    (s.applyReset rest).SameView (t.applyReset rest) where
  lc_eq := rfl
  input_eq := rfl
  output_eq := h.output_eq
  active_eq := nofun
  digest_eq := nofun

theorem State.SameView.construct {s t : State} (h : s.SameView t) (alg : Byte)
    (p : Config.AlgParams 32 8 64) : (s.construct alg p).SameView (t.construct alg p) where
  lc_eq := rfl
  input_eq := h.input_eq
  output_eq := h.output_eq
  active_eq _ := ⟨rfl, rfl, by simp⟩
  digest_eq := nofun

theorem State.SameView.absorb {s t : State} (h : s.SameView t) (hlc : s.lc = .active)
    (data : List Byte) : (s.absorb data).SameView (t.absorb data) where
  lc_eq := by simp [h.lc_eq]
  input_eq := by simp [h.input_eq]
  output_eq := by simp [h.output_eq]
  active_eq _ := by
    obtain ⟨hh, hlen, hpend⟩ := h.active_eq hlc
    simp only [absorb_h, absorb_len, absorb_pending, hh, hlen, hpend, and_self]
  digest_eq hf := by simp [hlc] at hf

theorem State.SameView.finalH_eq {s t : State} (h : s.SameView t) (hlc : s.lc = .active) :
    s.finalH = t.finalH := by
  obtain ⟨hh, hlen, hpend⟩ := h.active_eq hlc
  rw [State.finalH, State.finalH, hh, hlen, hpend]

theorem State.SameView.finalize {s t : State} (h : s.SameView t) (hlc : s.lc = .active) :
    s.finalize.SameView t.finalize where
  lc_eq := rfl
  input_eq := h.input_eq
  output_eq := h.output_eq
  active_eq := nofun
  digest_eq _ := by simp [h.finalH_eq hlc]

/-- A command does the same to two engines of one view: its checks and its effect read the view alone. -/
theorem sameOutcome_exec {s t : State} (h : s.SameView t) (i : Instr) :
    sameOutcome (exec i s) (exec i t) := by
  have hlc := h.lc_eq
  cases i with
  | construct alg =>
    by_cases ha : alg = algSha256
    · subst ha
      exact (h.construct algSha256 sha256).respond _ _ _
    · rw [exec_construct_other ha, exec_construct_other ha]
      exact h.respond _ _ _
  | update data =>
    by_cases hs : s.lc = .active
    · have hlen : s.len = t.len := (h.active_eq hs).2.1
      by_cases hl : s.len.toNat + data.length ≤ lenMax
      · rw [exec_update_ok hs hl, exec_update_ok (hlc ▸ hs) (hlen ▸ hl)]
        exact (h.absorb hs data).respond _ _ _
      · rw [exec_update_overflow hs (Nat.lt_of_not_le hl),
          exec_update_overflow (hlc ▸ hs) (Nat.lt_of_not_le (hlen ▸ hl))]
        exact h.respond _ _ _
    · rw [exec_update_inactive hs, exec_update_inactive (hlc ▸ hs)]
      exact h.respond _ _ _
  | finalize =>
    by_cases hs : s.lc = .active
    · rw [exec_finalize_ok hs, exec_finalize_ok (hlc ▸ hs), (h.finalize hs).digest_eq rfl]
      exact (h.finalize hs).respond _ _ _
    · rw [exec_finalize_inactive hs, exec_finalize_inactive (hlc ▸ hs)]
      exact h.respond _ _ _
  | readDigest =>
    by_cases hs : s.lc = .finalized
    · rw [exec_readDigest_ok hs, exec_readDigest_ok (hlc ▸ hs), h.digest_eq hs]
      exact h.respond _ _ _
    · rw [exec_readDigest_other hs, exec_readDigest_other (hlc ▸ hs)]
      exact h.respond _ _ _

theorem sameOutcome_runCommand {s t : State} (h : s.SameView t) (d : Descriptor) (p : List Byte) :
    sameOutcome (runCommand d p s) (runCommand d p t) := by
  unfold runCommand
  cases decode d p with
  | command i => exact sameOutcome_exec h i
  | illegal op => exact h.respond _ _ _

theorem sameOutcome_step {s t : State} (h : s.SameView t) : sameOutcome (step s) (step t) := by
  unfold step
  rw [← h.input_eq]
  cases fetch s.input with
  | idle => exact h
  | reset rest => exact h.applyReset rest
  | incomplete => rfl
  | command d p rest => exact sameOutcome_runCommand (h.withInput rest) d p

/-- Two outcomes alike to a host are two next states of one view, or one refusal twice. -/
theorem sameOutcome_cases {a b : Host.Outcome State Fault Refusal} (h : sameOutcome a b) :
    (∃ s t, a = .next s ∧ b = .next t ∧ s.SameView t) ∨ (∃ r, a = .refused r ∧ b = .refused r) := by
  match a, b, h with
  | .next s, .next t, h => exact .inl ⟨s, t, rfl, rfl, h⟩
  | .refused r, .refused _, rfl => exact .inr ⟨r, rfl, rfl⟩

/-- Settles O36, by induction on the number of steps. -/
theorem hiddenValuesAreNeverObserved : Obligations.HiddenValuesAreNeverObserved := by
  intro n
  induction n with
  | zero => exact fun s t h => h
  | succ n ih =>
    intro s t h
    obtain ⟨s', t', hs, ht, h'⟩ | ⟨r, hs, ht⟩ := sameOutcome_cases (sameOutcome_step h)
    · rw [run_succ_of_next hs, run_succ_of_next ht]
      exact ih s' t' h'
    · rw [run_succ_of_refused hs, run_succ_of_refused ht]
      rfl

/-! ### Who writes what -/

/-- R22: a command that changes `LC` is a successful CONSTRUCT or a FINALIZE in `ACTIVE`. -/
theorem exec_lc_cases {i : Instr} {s t : State} (ht : exec i s = .next t) (hne : t.lc ≠ s.lc) :
    (i = .construct 0x01 ∧ t.lc = .active) ∨
    (i = .finalize ∧ s.lc = .active ∧ t.lc = .finalized) := by
  obtain ⟨e, -, h⟩ | ⟨hi, h⟩ | ⟨data, -, -, -, h⟩ | ⟨hi, hlc, h⟩ | ⟨-, -, h⟩ := exec_cases i s <;>
    obtain rfl := Host.Outcome.next.inj (h.symm.trans ht)
  case inl => exact absurd rfl hne
  case inr.inl => exact .inl ⟨hi, rfl⟩
  case inr.inr.inl => exact absurd (s.absorb_lc data) hne
  case inr.inr.inr.inl => exact .inr ⟨hi, hlc, rfl⟩
  case inr.inr.inr.inr => exact absurd rfl hne

theorem runCommand_lc_cases {d : Descriptor} {p : List Byte} {s t : State}
    (ht : runCommand d p s = .next t) (hne : t.lc ≠ s.lc) :
    (decode d p = .command (.construct 0x01) ∧ t.lc = .active) ∨
    (decode d p = .command .finalize ∧ s.lc = .active ∧ t.lc = .finalized) := by
  obtain ⟨i, hd, h⟩ | ⟨-, h⟩ := runCommand_cases d p s
  · obtain ⟨rfl, hact⟩ | ⟨rfl, hact, hfin⟩ := exec_lc_cases (h.symm.trans ht) hne
    · exact .inl ⟨hd, hact⟩
    · exact .inr ⟨hd, hact, hfin⟩
  · obtain rfl := Host.Outcome.next.inj (h.symm.trans ht)
    exact absurd rfl hne

/-- Settles O27: the three writers, and `runCommand_lc_cases` for every command a step takes. -/
theorem onlyThreeEventsWriteLifecycle : Obligations.OnlyThreeEventsWriteLifecycle := by
  refine ⟨fun _ _ => rfl, fun s => ⟨_, exec_construct_sha256 s, rfl⟩,
    fun s hlc => ⟨_, exec_finalize_ok hlc, rfl⟩, fun s t ht hne => ?_⟩
  obtain ⟨-, h⟩ | ⟨rest, hf, h⟩ | ⟨d, p, rest, hf, h⟩ | ⟨_, _, _, _, h⟩ := step_cases s <;>
    rw [h] at ht
  · obtain rfl := Host.Outcome.next.inj ht
    exact absurd rfl hne
  · obtain rfl := Host.Outcome.next.inj ht
    exact .inl ⟨rest, hf, rfl⟩
  · exact .inr ⟨d, p, rest, hf, runCommand_lc_cases (s := s.withInput rest) ht hne⟩
  · cases ht

/-- Settles O28: what each outcome of `exec_cases` leaves unchanged, element by element. -/
theorem onlyNamedCommandsWriteEachElement : Obligations.OnlyNamedCommandsWriteEachElement := by
  intro i s
  obtain ⟨e, -, h⟩ | ⟨rfl, h⟩ | ⟨data, rfl, hlc, -, h⟩ | ⟨rfl, hlc, h⟩ | ⟨rfl, -, h⟩ := exec_cases i s <;>
    refine ⟨_, h, ?_⟩
  case inl => simp
  case inr.inl => simp [algSha256]
  case inr.inr.inl => simp [hlc]
  case inr.inr.inr.inl => simp [hlc]
  case inr.inr.inr.inr => simp

/-- Settles O15: in `UNCONSTRUCTED`, `exec_cases` leaves a command but CONSTRUCT of SHA-256 nothing but an
error. -/
theorem resetLeavesUnconstructed : Obligations.ResetLeavesUnconstructed := by
  refine ⟨rfl, rfl, rfl, fun i hi => ?_⟩
  obtain ⟨e, he, h⟩ | ⟨hc, -⟩ | ⟨_, -, hlc, -⟩ | ⟨-, hlc, -⟩ | ⟨-, hlc, -⟩ := exec_cases i State.reset
  · refine ⟨⟨responseWord i.opcode e, []⟩, h, rfl, ?_⟩
    rwa [Response.status_responseWord, Ne, Status.code_eq_zero_iff]
  · exact absurd hc hi
  all_goals cases hlc

end Sys2Proof.Machine

/-! SUPPORT. The family `20_memory.md`: commands on the channel and the steps that run them, the run from
CONSTRUCT to the digest, engines side by side, and the obligations that follow. -/

namespace Sys2Proof.Machine

/-! ### Commands on the channel -/

theorem State.withInput_of_input_eq {s : State} {items : List ChannelItem} (h : s.input = items) :
    s.withInput items = s := by
  subst h; rfl

/-- The host sends bytes: no reset strikes among them. -/
theorem head?_sent_ne_resetBeforeResponse (bs : List Byte) :
    (sent bs).head? ≠ some .resetBeforeResponse := by
  cases bs <;> simp [sent]

@[simp] theorem commandBytes_nil : commandBytes [] = [] := rfl

theorem commandBytes_cons (c : Descriptor × List Byte) (cs : List (Descriptor × List Byte)) :
    commandBytes (c :: cs) = be64enc c.1 ++ c.2 ++ commandBytes cs := by
  rw [commandBytes, List.flatMap_cons]; rfl

/-- Settles O6: the step fetches the encoding's descriptor and payload, which decode to the command. -/
theorem stepRunsDecodedCommand : Obligations.StepRunsDecodedCommand := by
  intro s i rest hi hr h
  have hp : i.payload.length = payloadLen (encodeDescriptor i) := (payloadLen_encodeDescriptor i hi).symm
  rw [step_command hp hr h, runCommand_encode]; rfl

/-- No whole command, legal or not, reads or writes the command channel (R58). -/
theorem runCommand_withInput (d : Descriptor) (p : List Byte) (s : State) (x : List ChannelItem) :
    ∃ t, runCommand d p s = .next t ∧ runCommand d p (s.withInput x) = .next (t.withInput x) ∧
      t.input = s.input := by
  unfold runCommand
  cases decode d p with
  | command i => exact exec_withInput i s x
  | illegal op => exact ⟨_, rfl, rfl, rfl⟩

/-- A step on a channel of whole commands runs the first and leaves the others waiting. -/
theorem step_commandBytes_cons {s : State} {c : Descriptor × List Byte}
    {cs : List (Descriptor × List Byte)} (hc : c.2.length = payloadLen c.1)
    (h : s.input = sent (commandBytes (c :: cs))) :
    ∃ t, runCommand c.1 c.2 (s.withInput []) = .next t ∧
      step s = .next (t.withInput (sent (commandBytes cs))) ∧ t.input = [] := by
  rw [commandBytes_cons, sent_append] at h
  rw [step_command hc (head?_sent_ne_resetBeforeResponse _) h]
  exact runCommand_withInput c.1 c.2 (s.withInput []) (sent (commandBytes cs))

theorem runAll_cons_of_next {c : Descriptor × List Byte} {cs : List (Descriptor × List Byte)} {s t : State}
    (h : runCommand c.1 c.2 s = .next t) : runAll (c :: cs) s = runAll cs t := by
  rw [runAll, h]

theorem step_of_input_nil {s : State} (h : s.input = []) : step s = .next s := by
  rw [step, h]; rfl

/-- As many steps as commands run them all and empty the channel (R58). -/
theorem run_commandBytes {cs : List (Descriptor × List Byte)} {s : State}
    (hcs : ∀ c ∈ cs, c.2.length = payloadLen c.1) (h : s.input = sent (commandBytes cs)) :
    ∃ t, runAll cs (s.withInput []) = .next t ∧ Sys2Proof.core.run cs.length s = .next t ∧
      t.input = [] := by
  induction cs generalizing s with
  | nil => exact ⟨s, congrArg _ (State.withInput_of_input_eq h), rfl, h⟩
  | cons c cs ih =>
    rw [List.forall_mem_cons] at hcs
    obtain ⟨t, hrun, hstep, ht⟩ := step_commandBytes_cons hcs.1 h
    have hback : (t.withInput (sent (commandBytes cs))).withInput [] = t := State.withInput_of_input_eq ht
    have := ih hcs.2 (t.withInput_input (sent (commandBytes cs)))
    rwa [hback, ← runAll_cons_of_next hrun, ← run_succ_of_next hstep] at this

/-- An engine with nothing but whole commands on its channel never stops: it runs the next one, or waits. -/
theorem safeRun_commandBytes (n : Nat) {cs : List (Descriptor × List Byte)} {s : State}
    (hcs : ∀ c ∈ cs, c.2.length = payloadLen c.1) (h : s.input = sent (commandBytes cs)) :
    s.SafeRun n := by
  unfold State.SafeRun
  induction n generalizing cs s with
  | zero => exact ⟨s, rfl⟩
  | succ n ih =>
    cases cs with
    | nil => rw [run_succ_of_next (step_of_input_nil h)]; exact ih hcs h
    | cons c cs =>
      rw [List.forall_mem_cons] at hcs
      obtain ⟨t, -, hstep, -⟩ := step_commandBytes_cons hcs.1 h
      rw [run_succ_of_next hstep]
      exact ih hcs.2 (t.withInput_input _)

/-- Settles O7, by induction on the commands for the run and on the steps for its safety. -/
theorem stepsRunCommandsInArrivalOrder : Obligations.StepsRunCommandsInArrivalOrder := by
  intro s cs hcs h
  obtain ⟨t, hall, hrun, -⟩ := run_commandBytes hcs h
  exact ⟨hrun.trans hall.symm, fun n => safeRun_commandBytes n hcs h⟩

/-! ### The run from CONSTRUCT to the digest -/

theorem execAll_cons_of_next {i : Instr} {is : List Instr} {s t : State} (h : exec i s = .next t) :
    execAll (i :: is) s = execAll is t := by
  rw [execAll, h]

theorem execAll_append_of_next {is : List Instr} (js : List Instr) {s t : State}
    (h : execAll is s = .next t) : execAll (is ++ js) s = execAll js t := by
  induction is generalizing s with
  | nil => obtain rfl := Host.Outcome.next.inj h; rfl
  | cons i is ih =>
    obtain ⟨u, hu, -⟩ := exec_withInput i s []
    rw [execAll_cons_of_next hu] at h
    rw [List.cons_append, execAll_cons_of_next hu, ih h]

theorem responseWord_construct_ok : responseWord opConstruct .ok = 0x01000000 := by decide

theorem responseWord_update_ok : responseWord opUpdate .ok = 0x02000000 := by decide

theorem responseWord_finalize_ok : responseWord opFinalize .ok = 0x03000000 := by decide

/-- Settles O18: the sum with `LEN` stays within the limit, and absorbing the empty chunk is the identity. -/
theorem emptyUpdateChangesNothing : Obligations.EmptyUpdateChangesNothing := by
  intro s hlc hl
  rw [exec_update_ok (data := []) hlc hl, State.absorb_nil, State.respond, responseWord_update_ok]

/-- R31, R51: the UPDATEs of `chunks` all succeed and append the chunks to the input message. -/
theorem State.Absorbed.execAll_updates {s : State} {m : List Byte} {chunks : List (List Byte)}
    (h : s.Absorbed m) (hl : m.length + chunks.flatten.length ≤ lenMax) :
    ∃ t, execAll (chunks.map .update) s = .next t ∧ t.Absorbed (m ++ chunks.flatten) ∧
      t.output = s.output ++ chunks.map (fun _ => ⟨0x02000000, []⟩) := by
  induction chunks generalizing s m with
  | nil => exact ⟨s, rfl, by simpa using h, by simp⟩
  | cons c cs ih =>
    rw [List.flatten_cons, List.length_append] at hl
    have hc : m.length + c.length ≤ lenMax := by omega
    have hexec := exec_update_ok h.active (data := c) (by rw [h.len_eq]; exact hc)
    obtain ⟨t, ht, habs, hout⟩ := ih ((h.absorb hc).respond opUpdate .ok [])
      (by rw [List.length_append]; omega)
    refine ⟨t, by rw [List.map_cons, execAll_cons_of_next hexec, ht], ?_, ?_⟩
    · rwa [List.flatten_cons, ← List.append_assoc]
    · rw [hout]; simp [responseWord_update_ok]

/-- The zero bytes after the pending bytes of a message are those R163 puts after the message. -/
theorem padZeros_tailOf_length (m : List Byte) :
    padZeros (tailOf m).length = ((55 - m.length : Int) % 64).toNat := by
  rw [tailOf_length]
  simp only [padZeros, sha256]
  omega

/-- R163: the state vector FINALIZE latches is that of the padded input message. -/
theorem State.Absorbed.digestBytes_finalH {s : State} {m : List Byte} (h : s.Absorbed m) :
    digestBytes s.finalH = sha256Of m := by
  have hpend : s.pending = tailOf m := h.pending_eq.trans (tailOf_eq_drop m).symm
  rw [State.finalH, h.h_eq, hpend, h.len_eq, pad, padZeros_tailOf_length]
  simp only [List.append_assoc, chain_take_tailOf_append, sha256Of]

theorem encodeDigest_toList (H : Vector Word 8) : (encodeDigest H).toList = digestBytes H := rfl

/-- R150, R163: FINALIZE sends and latches `SHA256` of the input message. -/
theorem State.Absorbed.exec_finalize {s : State} {m : List Byte} (h : s.Absorbed m) :
    ∃ t, exec .finalize s = .next t ∧ t.lc = .finalized ∧ t.digest.toList = sha256Of m ∧
      t.output = s.output ++ [⟨0x03000000, sha256Of m⟩] := by
  have hdigest : s.finalize.digest.toList = sha256Of m := by
    rw [State.finalize_digest, encodeDigest_toList, h.digestBytes_finalH]
  refine ⟨_, exec_finalize_ok h.active, rfl, hdigest, ?_⟩
  rw [State.respond_output, State.finalize_output, hdigest, responseWord_finalize_ok]

/-- R160: CONSTRUCT, the UPDATEs of `chunks` and FINALIZE all succeed, from any state, and the digest is
`SHA256` of the concatenated chunks. -/
theorem execAll_hashRun (s : State) {chunks : List (List Byte)} (hl : chunks.flatten.length ≤ lenMax) :
    ∃ t, execAll (hashRun chunks) s = .next t ∧ t.lc = .finalized ∧
      t.digest.toList = sha256Of chunks.flatten ∧
      t.output = s.output ++ hashResponses chunks (sha256Of chunks.flatten) := by
  have hinit := s.absorbed_nil_construct.respond opConstruct .ok []
  obtain ⟨u, hu, habs, huout⟩ := hinit.execAll_updates (chunks := chunks)
    (by rwa [List.length_nil, Nat.zero_add])
  obtain ⟨t, ht, hlc, hdigest, htout⟩ := habs.exec_finalize
  refine ⟨t, ?_, hlc, hdigest, ?_⟩
  · rw [hashRun, execAll_cons_of_next (exec_construct_sha256 s), execAll_append_of_next _ hu,
      execAll_cons_of_next ht, execAll]
  · rw [htout, huout]; simp [hashResponses, responseWord_construct_ok]

/-! ### The run on the byte channel -/

/-- A command as it stands on the channel, the descriptor and the payload (R70, R76). -/
def channelForm (i : Instr) : Descriptor × List Byte := (encodeDescriptor i, i.payload)

theorem commandBytes_map_channelForm (is : List Instr) :
    commandBytes (is.map channelForm) = is.flatMap encode := by
  rw [commandBytes, List.flatMap_map]; rfl

theorem runAll_map_channelForm (is : List Instr) (s : State) :
    runAll (is.map channelForm) s = execAll is s := by
  induction is generalizing s with
  | nil => rfl
  | cons i is ih =>
    obtain ⟨t, ht, -⟩ := exec_withInput i s []
    have hrun : runCommand (channelForm i).1 (channelForm i).2 s = .next t := (runCommand_encode i s).trans ht
    rw [List.map_cons, runAll_cons_of_next hrun, execAll_cons_of_next ht, ih]

/-- Well-formed commands, sent as bytes, are run in order until the channel is empty. -/
theorem run_flatMap_encode {is : List Instr} {s : State} (his : ∀ i ∈ is, i.WellFormed)
    (h : s.input = sent (is.flatMap encode)) :
    ∃ t, execAll is (s.withInput []) = .next t ∧ Sys2Proof.core.run is.length s = .next t ∧
      t.input = [] := by
  have hcs : ∀ c ∈ is.map channelForm, c.2.length = payloadLen c.1 :=
    List.forall_mem_map.mpr fun i hi => (payloadLen_encodeDescriptor i (his i hi)).symm
  rw [← commandBytes_map_channelForm] at h
  simpa only [runAll_map_channelForm, List.length_map] using run_commandBytes hcs h

theorem wellFormed_of_mem_hashRun {chunks : List (List Byte)} (hc : ∀ c ∈ chunks, c.length ≤ 2 ^ 32 - 1)
    {i : Instr} (hi : i ∈ hashRun chunks) : i.WellFormed := by
  obtain rfl | ⟨c, hmem, rfl⟩ | rfl : i = .construct algSha256 ∨ (∃ c ∈ chunks, .update c = i) ∨
      i = .finalize := by simpa [hashRun] using hi
  · rfl
  · have := hc c hmem
    exact decide_eq_true (show c.length < 2 ^ 32 by omega)
  · rfl

theorem length_hashRun (chunks : List (List Byte)) : (hashRun chunks).length = chunks.length + 2 := by
  simp [hashRun]

/-- Settles O34: the steps run the commands (`run_flatMap_encode`), and the commands hash
(`execAll_hashRun`). -/
theorem byteChannelRunComputesSha256 : Obligations.ByteChannelRunComputesSha256 := by
  intro s chunks hc hl h
  obtain ⟨t, hexec, hrun, hin⟩ := run_flatMap_encode (fun i => wellFormed_of_mem_hashRun hc) h
  obtain ⟨u, hu, -, -, hout⟩ := execAll_hashRun (s.withInput []) hl
  obtain rfl := Host.Outcome.next.inj (hu.symm.trans hexec)
  exact ⟨u, length_hashRun chunks ▸ hrun, hin, hout⟩

/-! ### Engines side by side -/

/-- A step of engine `k` is a step of its state, written back at its place (R64). -/
theorem Engines.stepAt_eq_next_iff {n : Nat} {es es' : Engines n} {k : Fin n} :
    es.stepAt k = .next es' ↔ ∃ t, step es[k] = .next t ∧ es.set k t = es' := by
  unfold Engines.stepAt
  cases step es[k] <;> simp

theorem Engines.set_getElem_of_ne {n : Nat} (es : Engines n) {j k : Fin n} (hjk : j ≠ k) (t : State) :
    (es.set k t)[j] = es[j] :=
  Vector.getElem_set_ne k.isLt j.isLt fun h => hjk (Fin.ext h.symm)

/-- Settles O39: `stepAt` reads and writes its own place, and writes at two places commute. -/
theorem enginesAreIndependent : Obligations.EnginesAreIndependent := by
  refine fun n es j k hjk => ⟨fun es' h => ?_, fun a b ha hb => ?_⟩
  · obtain ⟨t, ht, rfl⟩ := Engines.stepAt_eq_next_iff.mp h
    have hk : (es.set k t)[k] = t := Vector.getElem_set_self k.isLt
    exact ⟨es.set_getElem_of_ne hjk t, by rw [hk, ht]⟩
  · obtain ⟨s, hs, rfl⟩ := Engines.stepAt_eq_next_iff.mp ha
    obtain ⟨t, ht, rfl⟩ := Engines.stepAt_eq_next_iff.mp hb
    refine ⟨(es.set j s).set k t, Engines.stepAt_eq_next_iff.mpr ⟨t, ?_, rfl⟩,
      Engines.stepAt_eq_next_iff.mpr ⟨s, ?_, ?_⟩⟩
    · rw [es.set_getElem_of_ne hjk.symm, ht]
    · rw [es.set_getElem_of_ne hjk, hs]
    · exact Vector.set_comm t s fun h => hjk (Fin.ext h.symm)

end Sys2Proof.Machine

/-! SUPPORT. The family `30_encoding.md`: the decoder on bytes, the illegal descriptors, the opcode table,
the one response of every command, the pieces of a long payload, and the obligations that follow. -/

namespace Sys2Proof.Machine

/-! ### The decoder on bytes -/

/-- A descriptor that decodes to a command, its payload and anything after it are read as that command
(R70, R76, R77, R79). -/
theorem decodeBytes_of_decode {d : Descriptor} {p : List Byte} {i : Instr} (hp : p.length = payloadLen d)
    (hd : decode d p = .command i) (rest : List Byte) :
    decodeBytes (be64enc d ++ p ++ rest) = .ok (i, rest) := by
  have htake : (be64enc d ++ (p ++ rest)).take 8 = be64enc d := List.take_left' rfl
  have hdrop : (be64enc d ++ (p ++ rest)).drop 8 = p ++ rest := List.drop_left' rfl
  rw [List.append_assoc, decodeBytes, if_neg (by simp)]
  simp only [htake, hdrop, descriptorOfBytes_be64enc]
  rw [if_neg (by simp [hp]), List.take_left' hp, List.drop_left' hp, hd]

/-- And nothing else is read as a command: where no check of the decoder refuses, the bytes are cut at 8 and
at the payload's end, with none left out. -/
theorem exists_decode_of_decodeBytes {bs rest : List Byte} {i : Instr} (h : decodeBytes bs = .ok (i, rest)) :
    ∃ d p, p.length = payloadLen d ∧ decode d p = .command i ∧ be64enc d ++ p ++ rest = bs := by
  unfold decodeBytes at h
  split at h
  · cases h
  · rename_i h8
    have hlen : (bs.take 8).length = 8 := by rw [List.length_take]; omega
    simp only at h
    split at h
    · cases h
    · rename_i hn
      split at h
      · rename_i j hj
        obtain ⟨rfl, rfl⟩ := Prod.mk.inj (Except.ok.inj h)
        refine ⟨_, _, by rw [List.length_take]; omega, hj, ?_⟩
        rw [be64enc_descriptorOfBytes_of_length hlen, List.append_assoc, List.take_append_drop,
          List.take_append_drop]
      · cases h

/-- Settles O1: the encoding is the command's descriptor, which decodes to it, and its payload. -/
theorem decodeInvertsEncode : Obligations.DecodeInvertsEncode := fun i rest hi =>
  decodeBytes_of_decode (payloadLen_encodeDescriptor i hi).symm (decode_encodeDescriptor i) rest

/-- Settles O2: what was accepted is a descriptor and its payload, and these determine the command's. -/
theorem encodeInvertsDecode : Obligations.EncodeInvertsDecode := by
  intro bs i rest h
  obtain ⟨d, p, hp, hd, rfl⟩ := exists_decode_of_decodeBytes h
  obtain ⟨rfl, rfl, hi⟩ := encodeDescriptor_of_decode hp hd
  exact ⟨hi, rfl⟩

/-- Settles O5: the decoder run on the eight vectors. -/
theorem knownDescriptorsDecode : Obligations.KnownDescriptorsDecode := by
  unfold Obligations.KnownDescriptorsDecode
  decide +kernel

/-! ### Byte order -/

theorem responseWord_toNat (op : Byte) (st : Status) :
    (responseWord op st).toNat = op.toNat * 2 ^ 24 + st.code.toNat := by
  have h : (responseWord op st).toNat = _ := toNat_append_eq (op ++ (0 : BitVec 16)) st.code
  rw [toNat_append_eq] at h
  rw [h, BitVec.ofNat_eq_ofNat, BitVec.toNat_ofNat]
  ring

/-- A word made of four bytes is sent as those bytes, in order (R12). -/
theorem be32enc_be32 (b0 b1 b2 b3 : Byte) : be32enc (be32 b0 b1 b2 b3) = [b0, b1, b2, b3] := by
  have h0 := b0.isLt; have h1 := b1.isLt; have h2 := b2.isLt; have h3 := b3.isLt
  simp only [be32enc, List.cons.injEq, and_true]
  refine ⟨?_, ?_, ?_, ?_⟩ <;> apply BitVec.eq_of_toNat_eq <;>
    simp only [BitVec.extractLsb'_toNat, Nat.shiftRight_eq_div_pow, be32_toNat] <;> omega

theorem responseWord_eq_be32 (op : Byte) (st : Status) :
    responseWord op st = be32 op 0x00 0x00 st.code := by
  apply BitVec.eq_of_toNat_eq
  rw [responseWord_toNat, be32_toNat]
  simp

theorem be32enc_responseWord (op : Byte) (st : Status) :
    be32enc (responseWord op st) = [op, 0x00, 0x00, st.code] := by
  rw [responseWord_eq_be32, be32enc_be32]

@[simp] theorem Response.rop_responseWord (op : Byte) (st : Status) (p : List Byte) :
    (Response.mk (responseWord op st) p).rop = op :=
  (List.cons.inj (be32enc_responseWord op st)).1

/-- Bits 23:8 of the response word are zero (R80). -/
@[simp] theorem responseWord_middle (op : Byte) (st : Status) :
    (responseWord op st).extractLsb' 8 16 = 0 := by
  apply BitVec.eq_of_toNat_eq
  have hst := st.code.isLt
  simp only [BitVec.extractLsb'_toNat, Nat.shiftRight_eq_div_pow, responseWord_toNat,
    BitVec.ofNat_eq_ofNat, BitVec.toNat_ofNat]
  omega

theorem head?_be64enc (d : Descriptor) : (be64enc d).head? = some (opcodeOf d) := rfl

/-- Settles O11: the response word byte by byte, and `be64enc` read back as a number and a descriptor. -/
theorem byteOrderIsMostSignificantFirst : Obligations.ByteOrderIsMostSignificantFirst := by
  refine ⟨fun op st p => ?_, fun _ => rfl, fun d => ⟨be64enc_length d, beNat_be64enc d, head?_be64enc d,
    descriptorOfBytes_be64enc d⟩⟩
  rw [Response.toBytes, be32enc_responseWord]

/-! ### Which fields decode to which command (R74) -/

section

variable {d : Descriptor} (p : List Byte)

theorem decode_eq_construct (hop : opcodeOf d = opConstruct) (hr : rsvdOf d = 0) (hn : nbytesOf d = 0) :
    decode d p = .command (.construct (algOf d)) :=
  if_pos ⟨hop, hr, hn⟩

theorem decode_eq_update (hop : opcodeOf d = opUpdate) (ha : algOf d = 0) (hr : rsvdOf d = 0) :
    decode d p = .command (.update p) := by
  simp [decode, hop, ha, hr, opUpdate, opConstruct]

theorem decode_eq_finalize (hop : opcodeOf d = opFinalize) (ha : algOf d = 0) (hr : rsvdOf d = 0)
    (hn : nbytesOf d = 0) : decode d p = .command .finalize := by
  simp [decode, hop, ha, hr, hn, opFinalize, opConstruct, opUpdate]

theorem decode_eq_readDigest (hop : opcodeOf d = opReadDigest) (ha : algOf d = 0) (hr : rsvdOf d = 0)
    (hn : nbytesOf d = 0) : decode d p = .command .readDigest := by
  simp [decode, hop, ha, hr, hn, opReadDigest, opConstruct, opUpdate, opFinalize]

end

/-! ### Illegal descriptors -/

/-- The five ways a descriptor can be illegal (R78): an opcode of no row, or a nonzero field that R74
requires to be zero. -/
theorem decode_illegal_iff (d : Descriptor) (p : List Byte) :
    decode d p = .illegal (opcodeOf d) ↔
      opcodeOf d = 0x00 ∨ 0x05 ≤ opcodeOf d ∨ rsvdOf d ≠ 0 ∨
        (opcodeOf d ≠ 0x01 ∧ algOf d ≠ 0) ∨ (opcodeOf d ≠ 0x02 ∧ nbytesOf d ≠ 0) := by
  constructor
  · intro h
    by_contra hlegal
    simp only [not_or, not_and, not_not] at hlegal
    obtain ⟨h0, h5, hrsvd, halg, hnbytes⟩ := hlegal
    have hop : opcodeOf d = opConstruct ∨ opcodeOf d = opUpdate ∨ opcodeOf d = opFinalize ∨
        opcodeOf d = opReadDigest := by
      simp only [opConstruct, opUpdate, opFinalize, opReadDigest]
      bv_omega
    obtain hop | hop | hop | hop := hop
    · have hn := hnbytes (by rw [hop]; decide)
      cases h.symm.trans (decode_eq_construct p hop hrsvd hn)
    · have ha := halg (by rw [hop]; decide)
      cases h.symm.trans (decode_eq_update p hop ha hrsvd)
    · have ha := halg (by rw [hop]; decide)
      have hn := hnbytes (by rw [hop]; decide)
      cases h.symm.trans (decode_eq_finalize p hop ha hrsvd hn)
    · have ha := halg (by rw [hop]; decide)
      have hn := hnbytes (by rw [hop]; decide)
      cases h.symm.trans (decode_eq_readDigest p hop ha hrsvd hn)
  · intro h
    obtain ⟨alg, rfl, -⟩ | ⟨n, rfl, -⟩ | ⟨rfl, -⟩ | ⟨rfl, -⟩ | hd := decode_cases d p
    case inr.inr.inr.inr => exact hd
    all_goals simp at h

theorem opcode_of_decode_illegal {d : Descriptor} {p : List Byte} {op : Byte}
    (h : decode d p = .illegal op) : op = opcodeOf d := by
  obtain ⟨_, -, hd⟩ | ⟨_, -, hd⟩ | ⟨-, hd⟩ | ⟨-, hd⟩ | hd := decode_cases d p <;>
    cases hd.symm.trans h
  rfl

theorem responseWord_illegalCommand (op : Byte) :
    responseWord op .illegalCommand = op ++ (0x000004 : BitVec 24) := by
  simp only [responseWord, BitVec.append_assoc]
  rfl

/-- Settles O3: `decode_illegal_iff`, and the meaning of an illegal descriptor is `raise`. -/
theorem illegalDescriptorsExactly : Obligations.IllegalDescriptorsExactly := by
  refine fun d p => ⟨decode_illegal_iff d p, fun op h => ?_⟩
  obtain rfl := opcode_of_decode_illegal h
  refine ⟨rfl, fun s => ?_⟩
  rw [runCommand, h, ← responseWord_illegalCommand]
  rfl

/-! ### The opcode table -/

theorem descriptorOf_and (op op' alg alg' : Byte) (r r' : BitVec 16) (n n' : BitVec 32) :
    descriptorOf op alg r n &&& descriptorOf op' alg' r' n' =
      descriptorOf (op &&& op') (alg &&& alg') (r &&& r') (n &&& n') := by
  have h : descriptorOf op alg r n &&& descriptorOf op' alg' r' n' = _ :=
    BitVec.and_append (x₁ := op ++ alg ++ r) (x₂ := op' ++ alg' ++ r')
  rw [BitVec.and_append, BitVec.and_append] at h
  exact h

theorem descriptorOf_inj {op op' alg alg' : Byte} {r r' : BitVec 16} {n n' : BitVec 32} :
    descriptorOf op alg r n = descriptorOf op' alg' r' n' ↔ op = op' ∧ alg = alg' ∧ r = r' ∧ n = n' := by
  refine ⟨fun h => ?_, by rintro ⟨rfl, rfl, rfl, rfl⟩; rfl⟩
  exact ⟨by simpa using congrArg opcodeOf h, by simpa using congrArg algOf h,
    by simpa using congrArg rsvdOf h, by simpa using congrArg nbytesOf h⟩

/-- A row given by the fields of its match and of its mask covers a descriptor when each field, masked, is
the match's (R75). -/
theorem OpcodeRow.covers_iff_fields (m : String) (op alg opMask algMask : Byte) (r rMask : BitVec 16)
    (n nMask : BitVec 32) (d : Descriptor) :
    (OpcodeRow.mk m (descriptorOf op alg r n) (descriptorOf opMask algMask rMask nMask)).covers d = true ↔
      opcodeOf d &&& opMask = op ∧ algOf d &&& algMask = alg ∧ rsvdOf d &&& rMask = r ∧
        nbytesOf d &&& nMask = n := by
  rw [← descriptorOf_inj, ← descriptorOf_and, descriptorOf_fields]
  exact beq_iff_eq

theorem covers_construct_iff (m : String) (d : Descriptor) :
    (OpcodeRow.mk m 0x0100000000000000 0xFF00FFFFFFFFFFFF).covers d = true ↔
      opcodeOf d = opConstruct ∧ rsvdOf d = 0 ∧ nbytesOf d = 0 := by
  refine (OpcodeRow.covers_iff_fields m opConstruct 0 (.allOnes 8) 0 0 (.allOnes 16) 0 (.allOnes 32)
    d).trans ?_
  simp only [BitVec.and_allOnes, BitVec.ofNat_eq_ofNat, BitVec.and_zero, true_and]

theorem covers_update_iff (m : String) (d : Descriptor) :
    (OpcodeRow.mk m 0x0200000000000000 0xFFFFFFFF00000000).covers d = true ↔
      opcodeOf d = opUpdate ∧ algOf d = 0 ∧ rsvdOf d = 0 := by
  refine (OpcodeRow.covers_iff_fields m opUpdate 0 (.allOnes 8) (.allOnes 8) 0 (.allOnes 16) 0 0 d).trans ?_
  simp only [BitVec.and_allOnes, BitVec.ofNat_eq_ofNat, BitVec.and_zero, and_true]

theorem covers_iff_eq_of_mask_allOnes (m : String) (x d : Descriptor) :
    (OpcodeRow.mk m x (.allOnes 64)).covers d = true ↔ d = x := by
  refine beq_iff_eq.trans ?_
  rw [BitVec.and_allOnes]

theorem covers_finalize_iff (m : String) (d : Descriptor) :
    (OpcodeRow.mk m 0x0300000000000000 0xFFFFFFFFFFFFFFFF).covers d = true ↔
      d = encodeDescriptor .finalize :=
  covers_iff_eq_of_mask_allOnes m _ d

theorem covers_readDigest_iff (m : String) (d : Descriptor) :
    (OpcodeRow.mk m 0x0400000000000000 0xFFFFFFFFFFFFFFFF).covers d = true ↔
      d = encodeDescriptor .readDigest :=
  covers_iff_eq_of_mask_allOnes m _ d

/-- A descriptor that decodes to a command is covered by the command's row. -/
theorem covers_of_decode {d : Descriptor} {p : List Byte} {i : Instr} (h : decode d p = .command i) :
    ∀ r ∈ opcodeTable, i.mnemonic = r.mnemonic → r.covers d = true := by
  simp only [opcodeTable, List.forall_mem_cons, covers_construct_iff, covers_update_iff, covers_finalize_iff,
    covers_readDigest_iff]
  obtain ⟨alg, rfl, hd⟩ | ⟨n, rfl, hd⟩ | ⟨rfl, hd⟩ | ⟨rfl, hd⟩ | hd := decode_cases d p <;>
    cases h.symm.trans hd
  case inl => simp [Instr.mnemonic, opConstruct]
  case inr.inl => simp [Instr.mnemonic, opUpdate]
  case inr.inr.inl => simp [Instr.mnemonic, encodeDescriptor, opFinalize]
  case inr.inr.inr.inl => simp [Instr.mnemonic, encodeDescriptor, opReadDigest]

/-- A descriptor that a row covers decodes to a command of that row. -/
theorem decode_of_covers {d : Descriptor} (p : List Byte) :
    ∀ r ∈ opcodeTable, r.covers d = true → ∃ i, decode d p = .command i ∧ i.mnemonic = r.mnemonic := by
  simp only [opcodeTable, List.forall_mem_cons, covers_construct_iff, covers_update_iff, covers_finalize_iff,
    covers_readDigest_iff]
  refine ⟨?_, ?_, ?_, ?_, by simp⟩
  · rintro ⟨hop, hr, hn⟩
    exact ⟨_, decode_eq_construct p hop hr hn, rfl⟩
  · rintro ⟨hop, ha, hr⟩
    exact ⟨_, decode_eq_update p hop ha hr, rfl⟩
  · rintro rfl
    exact ⟨_, decode_encodeDescriptor .finalize, rfl⟩
  · rintro rfl
    exact ⟨_, decode_encodeDescriptor .readDigest, rfl⟩

theorem covers_iff_decode (d : Descriptor) (p : List Byte) {r : OpcodeRow} (hr : r ∈ opcodeTable) :
    r.covers d = true ↔ ∃ i, decode d p = .command i ∧ i.mnemonic = r.mnemonic :=
  ⟨decode_of_covers p r hr, fun ⟨_, hd, hm⟩ => covers_of_decode hd r hr hm⟩

theorem eq_of_mnemonic_eq : ∀ r ∈ opcodeTable, ∀ q ∈ opcodeTable, r.mnemonic = q.mnemonic → r = q := by
  decide

/-- Settles O4: `covers_iff_decode`; two rows that cover one descriptor name the one command it decodes to. -/
theorem matchMaskRowsAgreeWithDecode : Obligations.MatchMaskRowsAgreeWithDecode := by
  refine ⟨rfl, fun d r hr q hq hrd hqd => ?_, fun d p r hr => covers_iff_decode d p hr⟩
  obtain ⟨i, hi, hir⟩ := decode_of_covers [] r hr hrd
  obtain ⟨j, hj, hjq⟩ := decode_of_covers [] q hq hqd
  cases hi.symm.trans hj
  exact eq_of_mnemonic_eq r hr q hq (hir.symm.trans hjq)

/-! ### One response to every command -/

/-- The digest goes with an `OK` FINALIZE or READ_DIGEST alone (R80): `digest` is what `DIGEST` holds after
the command with opcode `op` that reports `st`. -/
def expectedPayload (op : Byte) (st : Status) (digest : Vector Byte 32) : List Byte :=
  if st = .ok ∧ (op = opFinalize ∨ op = opReadDigest) then digest.toList else []

/-- `t` is a state that `s` can go to by answering once, with `op` and `st` and the payload they call for. -/
structure AnswersOnce (s t : State) (op : Byte) (st : Status) : Prop where
  input_eq : t.input = s.input
  output_eq : t.output = s.output ++ [⟨responseWord op st, expectedPayload op st t.digest⟩]

theorem answersOnce_raise (s : State) (op : Byte) {e : Status} (he : e ≠ .ok) :
    AnswersOnce s (s.raise op e) op e where
  input_eq := rfl
  output_eq := by simp [expectedPayload, he]

/-- R80, R186: a whole command, legal or not, answers once, with its opcode and the status of highest
priority. -/
theorem runCommand_answersOnce (d : Descriptor) (p : List Byte) (s : State) :
    ∃ t, runCommand d p s = .next t ∧ AnswersOnce s t (opcodeOf d) (expectedStatus s d p) := by
  by_cases hok : expectedStatus s d p = .ok
  case neg => exact ⟨_, runCommand_of_expectedStatus_ne_ok hok, answersOnce_raise s _ hok⟩
  rw [hok]
  obtain ⟨alg, rfl, hd⟩ | ⟨n, rfl, hd⟩ | ⟨rfl, hd⟩ | ⟨rfl, hd⟩ | hd := decode_cases d p <;>
    simp only [expectedStatus, runCommand, hd, opcodeOf_descriptorOf] at hok ⊢
  case inl =>
    obtain rfl : alg = algSha256 := by by_contra h; simp [h] at hok
    exact ⟨_, exec_construct_sha256 s, rfl, by simp [expectedPayload, opConstruct, opFinalize, opReadDigest]⟩
  case inr.inl =>
    have hlc : s.lc = .active := by by_contra h; simp [h] at hok
    have hl : s.len.toNat + p.length ≤ lenMax := by by_contra h; simp [hlc, Nat.lt_of_not_le h] at hok
    exact ⟨_, exec_update_ok hlc hl, by simp, by simp [expectedPayload, opUpdate, opFinalize, opReadDigest]⟩
  case inr.inr.inl =>
    have hlc : s.lc = .active := by by_contra h; simp [h] at hok
    exact ⟨_, exec_finalize_ok hlc, rfl, by simp [expectedPayload, opFinalize]⟩
  case inr.inr.inr.inl =>
    have hlc : s.lc = .finalized := by by_contra h; simp [h] at hok
    exact ⟨_, exec_readDigest_ok hlc, rfl, by simp [expectedPayload, opReadDigest]⟩
  case inr.inr.inr.inr => cases hok

/-- Settles O8: the step runs the command (`step_command`), which answers once. -/
theorem everyCommandSendsOneResponse : Obligations.EveryCommandSendsOneResponse := by
  intro s d p rest hp hr h
  obtain ⟨t, ht, hin, hout⟩ := runCommand_answersOnce d p (s.withInput rest)
  refine ⟨rfl, t, _, (step_command hp hr h).trans ht, hin, hout, ?_⟩
  simp only [Response.rop_responseWord, Response.status_responseWord, responseWord_middle,
    Status.code_eq_zero_iff, true_and]
  exact ⟨rfl, rfl⟩

/-! ### Where a step stops -/

theorem runCommand_next (d : Descriptor) (p : List Byte) (s : State) : ∃ t, runCommand d p s = .next t := by
  obtain ⟨t, ht, -⟩ := runCommand_withInput d p s []
  exact ⟨t, ht⟩

/-- A step is refused exactly on the beginning of a command and nothing after it (R215). -/
theorem step_eq_refused_iff {s : State} {r : Refusal} :
    step s = .refused r ↔
      r = .incompleteCommand ∧ ∃ bs, bs ≠ [] ∧ s.input = sent bs ∧ ProperPrefix bs := by
  constructor
  · intro h
    obtain ⟨-, hs⟩ | ⟨_, -, hs⟩ | ⟨d, p, rest, -, hs⟩ | ⟨bs, h0, hbs, hin, hs⟩ := step_cases s
    · cases hs.symm.trans h
    · cases hs.symm.trans h
    · obtain ⟨t, ht⟩ := runCommand_next d p (s.withInput rest)
      cases (hs.trans ht).symm.trans h
    · cases hs.symm.trans h
      exact ⟨rfl, bs, h0, hin, hbs⟩
  · rintro ⟨rfl, bs, h0, hin, hbs⟩
    rw [step, hin, fetch_prefix_short hbs h0]
    rfl

/-- Settles O14: `Fault` is empty, and `step_eq_refused_iff`. -/
theorem stepStopsOnlyOnIncompleteCommand : Obligations.StepStopsOnlyOnIncompleteCommand :=
  fun _ => ⟨nofun, fun _ => step_eq_refused_iff⟩

/-! ### The pseudo-commands -/

theorem piecesOf_cons (k fuel : Nat) (b : Byte) (bs : List Byte) :
    piecesOf k (fuel + 1) (b :: bs) = (b :: bs.take k) :: piecesOf k fuel (bs.drop k) := rfl

@[simp] theorem piecesOf_nil (k fuel : Nat) : piecesOf k fuel [] = [] := by
  cases fuel <;> rfl

/-- The pieces, put together again, are the data. -/
theorem flatten_piecesOf (k : Nat) {fuel : Nat} {data : List Byte} (h : data.length ≤ fuel) :
    (piecesOf k fuel data).flatten = data := by
  induction fuel generalizing data with
  | zero => rw [List.eq_nil_of_length_eq_zero (Nat.le_zero.mp h)]; rfl
  | succ fuel ih =>
    cases data with
    | nil => rfl
    | cons b bs =>
      have hdrop : (bs.drop k).length ≤ fuel := by
        rw [List.length_drop]; rw [List.length_cons] at h; omega
      rw [piecesOf_cons, List.flatten_cons, ih hdrop, List.cons_append, List.take_append_drop]

theorem length_of_mem_piecesOf {k fuel : Nat} {data p : List Byte} (hp : p ∈ piecesOf k fuel data) :
    0 < p.length ∧ p.length ≤ k + 1 := by
  induction fuel generalizing data with
  | zero => cases hp
  | succ fuel ih =>
    cases data with
    | nil => cases hp
    | cons b bs =>
      obtain rfl | hp := List.mem_cons.mp hp
      · rw [List.length_cons, List.length_take]; omega
      · exact ih hp

/-- Every piece but the last is full: where another piece follows, `k` bytes were there to take. -/
theorem length_of_mem_dropLast_piecesOf {k fuel : Nat} {data p : List Byte}
    (hp : p ∈ (piecesOf k fuel data).dropLast) : p.length = k + 1 := by
  induction fuel generalizing data with
  | zero => cases hp
  | succ fuel ih =>
    cases data with
    | nil => cases hp
    | cons b bs =>
      rw [piecesOf_cons] at hp
      by_cases hrest : piecesOf k fuel (bs.drop k) = []
      · rw [hrest] at hp; cases hp
      · rw [List.dropLast_cons_of_ne_nil hrest] at hp
        obtain rfl | hp := List.mem_cons.mp hp
        · have hk : k < bs.length := by
            by_contra hk
            exact hrest (by rw [List.drop_eq_nil_of_le (Nat.le_of_not_lt hk), piecesOf_nil])
          rw [List.length_cons, List.length_take]; omega
        · exact ih hp

@[simp] theorem absorbPieces_nil : absorbPieces [] = [[]] := rfl

theorem absorbPieces_of_ne_nil {data : List Byte} (h : data ≠ []) :
    absorbPieces data = piecesOf (maxChunk - 1) data.length data := by
  cases data with
  | nil => exact absurd rfl h
  | cons b bs => rfl

theorem maxChunk_sub_one_add_one : maxChunk - 1 + 1 = 2 ^ 32 - 1 := rfl

theorem flatten_absorbPieces (data : List Byte) : (absorbPieces data).flatten = data := by
  by_cases h : data = []
  · subst h; rfl
  · rw [absorbPieces_of_ne_nil h, flatten_piecesOf _ (Nat.le_refl _)]

theorem absorbPieces_ne_nil (data : List Byte) : absorbPieces data ≠ [] := by
  cases data <;> exact List.cons_ne_nil _ _

theorem length_of_mem_dropLast_absorbPieces {data p : List Byte} (hp : p ∈ (absorbPieces data).dropLast) :
    p.length = 2 ^ 32 - 1 := by
  by_cases h : data = []
  · subst h; cases hp
  · rw [absorbPieces_of_ne_nil h] at hp
    rw [length_of_mem_dropLast_piecesOf hp, maxChunk_sub_one_add_one]

theorem length_of_mem_absorbPieces {data p : List Byte} (hp : p ∈ absorbPieces data) :
    p.length ≤ 2 ^ 32 - 1 := by
  by_cases h : data = []
  · subst h; obtain rfl := List.mem_singleton.mp hp; exact Nat.zero_le _
  · rw [absorbPieces_of_ne_nil h] at hp
    exact maxChunk_sub_one_add_one ▸ (length_of_mem_piecesOf hp).2

theorem nil_not_mem_absorbPieces {data : List Byte} (h : data ≠ []) : [] ∉ absorbPieces data := by
  rw [absorbPieces_of_ne_nil h]
  exact fun hp => Nat.lt_irrefl 0 (length_of_mem_piecesOf hp).1

/-- `HASH` is the run from CONSTRUCT to FINALIZE fed with the pieces (R85, R160). -/
theorem hashCommands_eq_hashRun (data : List Byte) : hashCommands data = hashRun (absorbPieces data) := rfl

/-- Settles O48: the properties of the pieces, and `execAll_hashRun` of the pieces. -/
theorem hashPseudoCommandComputesSha256 : Obligations.HashPseudoCommandComputesSha256 := by
  refine ⟨fun data => ⟨flatten_absorbPieces data, absorbPieces_ne_nil data,
    fun _ => length_of_mem_dropLast_absorbPieces, fun _ => length_of_mem_absorbPieces,
    nil_not_mem_absorbPieces, rfl, rfl⟩, absorbPieces_nil, fun s data hl => ?_⟩
  obtain ⟨t, ht, -, hdigest, -⟩ := execAll_hashRun s (chunks := absorbPieces data)
    (by rw [flatten_absorbPieces]; exact hl)
  exact ⟨t, by rw [hashCommands_eq_hashRun, ht], by rw [hdigest, flatten_absorbPieces]⟩

/-- Settles O49: the reader and the assembler run on the lines. -/
theorem assemblerExamples : Obligations.AssemblerExamples := by
  unfold Obligations.AssemblerExamples
  decide +kernel

end Sys2Proof.Machine

/-! SUPPORT. The family `40_compressor.md`: the functions of one word read bit by bit, the schedule and the
rounds as sequences, the constants as roots of primes, and the obligations that follow. -/

namespace Sys2Proof.Machine

/-! ### The functions of one word, bit by bit -/

/-- A bit that is not shifted out at the bottom comes from the right shift, the others from the left shift
(R11). -/
theorem getLsbD_rotr {n i : Nat} (x : Word) (hn : n < 32) (hi : i < 32) :
    (rotr n x).getLsbD i = x.getLsbD ((i + n) % 32) := by
  rw [rotr, BitVec.getLsbD_or, BitVec.getLsbD_ushiftRight, BitVec.getLsbD_shiftLeft]
  by_cases h : i + n < 32
  · have hlow : i < 32 - n := by omega
    simp [hlow, Nat.mod_eq_of_lt h, Nat.add_comm n i]
  · have hwrap : (i + n) % 32 = i - (32 - n) := by omega
    have hlow : ¬ i < 32 - n := by omega
    rw [hwrap, BitVec.getLsbD_of_ge x (n + i) (by omega)]
    simp [hi, hlow]

theorem getLsbD_shr (n i : Nat) (x : Word) : (shr n x).getLsbD i = x.getLsbD (i + n) := by
  rw [shr, BitVec.getLsbD_ushiftRight, Nat.add_comm]

/-- Settles O41: a bit of an exclusive or, `getLsbD_rotr` and `getLsbD_shr`. -/
theorem sigmaFunctionsBitByBit : Obligations.SigmaFunctionsBitByBit := by
  intro x i hi
  simp only [bigSigma0, bigSigma1, smallSigma0, smallSigma1, BitVec.getLsbD_xor, getLsbD_rotr x _ hi,
    getLsbD_shr, Nat.reduceLT, and_self]

/-- Settles O40: `Ch` by the two values of the bit of `x`, `Maj` by the values of the three bits. -/
theorem chChoosesAndMajIsMajority : Obligations.ChChoosesAndMajIsMajority := by
  refine fun x y z i => ⟨fun hi => ?_, ?_⟩
  · rw [chF, BitVec.getLsbD_xor, BitVec.getLsbD_and, BitVec.getLsbD_and, BitVec.getLsbD_not]
    cases x.getLsbD i <;> simp [hi]
  · simp only [majF, BitVec.getLsbD_xor, BitVec.getLsbD_and]
    cases x.getLsbD i <;> cases y.getLsbD i <;> cases z.getLsbD i <;> rfl

/-! ### The message schedule -/

theorem scheduleTo_succ_getElem (blk : Block) {k t : Nat} (ht : t < 16 + k) :
    (scheduleTo blk (k + 1))[t] = (scheduleTo blk k)[t] :=
  Vector.getElem_push_lt ht

theorem scheduleTo_succ_getElem_last (blk : Block) (k : Nat) :
    (scheduleTo blk (k + 1))[16 + k] =
      smallSigma1 (scheduleTo blk k)[16 + k - 2] + (scheduleTo blk k)[16 + k - 7] +
        smallSigma0 (scheduleTo blk k)[16 + k - 15] + (scheduleTo blk k)[16 + k - 16] :=
  Vector.getElem_push_eq

/-- A word of the schedule is final once the recurrence has reached it (R105). -/
theorem schedule_getElem (blk : Block) {k t : Nat} (hk : k ≤ 48) (ht : t < 16 + k) :
    (schedule blk)[t] = (scheduleTo blk k)[t] := by
  suffices h : ∀ m (hm : k ≤ m), (scheduleTo blk m)[t] = (scheduleTo blk k)[t] from h 48 hk
  intro m hm
  induction m, hm using Nat.le_induction with
  | base => rfl
  | succ m hm ih => rw [scheduleTo_succ_getElem blk (by omega), ih]

/-- Settles O42: word `16 + k` is the one the recurrence's step `k` appends, and `schedule_getElem` says the
same of the words it is computed from. -/
theorem scheduleFollowsRecurrence : Obligations.ScheduleFollowsRecurrence := by
  refine fun blk => ⟨fun t ht => ?_, fun t ht h16 => ?_⟩
  · rw [schedule_getElem blk (Nat.zero_le 48) ht]
    exact Vector.getElem_ofFn ht
  · obtain ⟨k, rfl⟩ := Nat.exists_eq_add_of_le h16
    have hprev : ∀ u (hu : u < 16 + k), (schedule blk)[u] = (scheduleTo blk k)[u] :=
      fun _ => schedule_getElem blk (by omega)
    rw [schedule_getElem blk (k := k + 1) (by omega) (by omega), scheduleTo_succ_getElem_last,
      hprev, hprev, hprev, hprev]

/-! ### The rounds -/

/-- The working variables of `compress H blk` after `t` rounds, the last ones again from 64 on. -/
def workingAfter (H : Vector Word 8) (blk : Block) (t : Nat) : Working :=
  roundsTo (schedule blk) (workingOf H) (min t 64) (Nat.min_le_right t 64)

theorem workingAfter_of_le (H : Vector Word 8) (blk : Block) {t : Nat} (ht : t ≤ 64) :
    workingAfter H blk t = roundsTo (schedule blk) (workingOf H) t ht := by
  simp only [workingAfter, Nat.min_eq_left ht]

theorem workingAfter_succ (H : Vector Word 8) (blk : Block) {t : Nat} (ht : t < 64) :
    workingAfter H blk (t + 1) = roundStep sha256.K[t] (schedule blk)[t] (workingAfter H blk t) := by
  rw [workingAfter_of_le H blk ht, workingAfter_of_le H blk (Nat.le_of_lt ht), roundsTo]

/-- Settles O43: the sequence is `workingAfter`, and `workingAfter_succ` is its round. -/
theorem compressIsSixtyFourRounds : Obligations.CompressIsSixtyFourRounds := fun H blk =>
  ⟨workingAfter H blk, rfl, fun _ ht => workingAfter_succ H blk ht, rfl⟩

/-- The padded block of `"abc"` (V-C1). -/
def abcBlock : Block := firstBlock (pad [0x61, 0x62, 0x63] 3) (by decide)

theorem abcBlock_toList :
    abcBlock.toList = [0x61, 0x62, 0x63, 0x80] ++ List.replicate 59 0x00 ++ [0x18] := by
  decide +kernel

/-- Settles O46: the bytes determine the block, and its compression is evaluated. -/
theorem compressKnownBlock : Obligations.CompressKnownBlock := by
  intro blk hblk
  obtain rfl : blk = abcBlock := Vector.toList_inj.mp (hblk.trans abcBlock_toList.symm)
  decide +kernel

/-! ### The constants -/

/-- The first 64 primes. -/
def firstPrimes : Vector Nat 64 :=
  #v[2, 3, 5, 7, 11, 13, 17, 19, 23, 29, 31, 37, 41, 43, 47, 53, 59, 61, 67, 71, 73, 79, 83, 89, 97, 101,
    103, 107, 109, 113, 127, 131, 137, 139, 149, 151, 157, 163, 167, 173, 179, 181, 191, 193, 197, 199,
    211, 223, 227, 229, 233, 239, 241, 251, 257, 263, 269, 271, 277, 281, 283, 293, 307, 311]

/-- Trial division of `n` by the numbers from 2 to 17 that are less than `n`: primality for `n < 18 ^ 2`, by
`passesTrialDivision_iff`, and cheap to evaluate. -/
def passesTrialDivision (n : Nat) : Bool :=
  decide (2 ≤ n ∧ ∀ m : Nat, 2 ≤ m → m < min 18 n → ¬ m ∣ n)

/-- Every composite number below `18 ^ 2` has a divisor below 18. -/
theorem passesTrialDivision_iff {n : Nat} (hn : n < 18 ^ 2) : passesTrialDivision n ↔ n.Prime := by
  rw [passesTrialDivision, decide_eq_true_iff]
  refine ⟨fun ⟨h2, h⟩ => Nat.prime_def_le_sqrt.mpr ⟨h2, fun m hm hsqrt => h m hm ?_⟩, fun hp => ?_⟩
  · exact hsqrt.trans_lt (lt_min (Nat.sqrt_lt'.mpr hn) (Nat.sqrt_lt_self h2))
  · obtain ⟨h2, h⟩ := Nat.prime_def_lt'.mp hp
    exact ⟨h2, fun m hm hlt => h m hm (hlt.trans_le (Nat.min_le_right 18 n))⟩

theorem count_passesTrialDivision {n : Nat} (hn : n ≤ 18 ^ 2) :
    Nat.count (passesTrialDivision ·) n = Nat.count Nat.Prime n :=
  Nat.le_antisymm
    (Nat.count_mono_left fun _ hk => (passesTrialDivision_iff (hk.trans_le hn)).mp)
    (Nat.count_mono_left fun _ hk => (passesTrialDivision_iff (hk.trans_le hn)).mpr)

/-- Entry `t` of the list passes trial division, and `t` smaller numbers do. -/
theorem firstPrimes_trialDivision : ∀ t (_ : t < 64), firstPrimes[t] < 18 ^ 2 ∧
    passesTrialDivision firstPrimes[t] ∧ Nat.count (passesTrialDivision ·) firstPrimes[t] = t := by
  decide +kernel

theorem nth_prime_eq_firstPrimes {t : Nat} (ht : t < 64) : Nat.nth Nat.Prime t = firstPrimes[t] := by
  obtain ⟨hlt, hpass, hcount⟩ := firstPrimes_trialDivision t ht
  rw [count_passesTrialDivision hlt.le] at hcount
  have h := Nat.nth_count ((passesTrialDivision_iff hlt).mp hpass)
  rwa [hcount] at h

theorem K_eq_nthRoot : ∀ t (_ : t < 64),
    sha256.K[t].toNat = Nat.nthRoot 3 (firstPrimes[t] * 2 ^ 96) % 2 ^ 32 := by
  decide +kernel

theorem IV_eq_nthRoot : ∀ i (_ : i < 8),
    sha256.IV[i].toNat = Nat.nthRoot 2 (firstPrimes[i] * 2 ^ 64) % 2 ^ 32 := by
  decide +kernel

/-- Settles O44: the integer cube root of the library, taken of the entry of `firstPrimes`. -/
theorem roundConstantsAreCubeRoots : Obligations.RoundConstantsAreCubeRoots := by
  intro t ht
  rw [nth_prime_eq_firstPrimes ht]
  exact ⟨_, Nat.pow_nthRoot_le (.inl (by decide)), Nat.lt_pow_nthRoot_add_one (by decide) _, K_eq_nthRoot t ht⟩

/-- Settles O45: CONSTRUCT loads the parameters' vector, and that vector is the integer square roots of the
library, taken of the entries of `firstPrimes`. -/
theorem initialVectorIsSquareRoots : Obligations.InitialVectorIsSquareRoots := by
  refine ⟨fun s => ⟨_, exec_construct_sha256 s, rfl⟩, fun i hi => ?_⟩
  rw [nth_prime_eq_firstPrimes (by omega)]
  exact ⟨_, Nat.pow_nthRoot_le (.inl (by decide)), Nat.lt_pow_nthRoot_add_one (by decide) _, IV_eq_nthRoot i hi⟩

end Sys2Proof.Machine

/-! SUPPORT. The family `41_streaming.md`: the responses in figures, blocks and padding, what each command
does in each lifecycle state, how many compressions it runs, and the obligations that follow. -/

namespace Sys2Proof.Machine

/-! ### Errors, in figures -/

theorem responseWord_construct_unsupportedAlgorithm :
    responseWord opConstruct .unsupportedAlgorithm = 0x01000001 := by decide

theorem responseWord_update_invalidState : responseWord opUpdate .invalidState = 0x02000002 := by decide

theorem responseWord_update_counterOverflow : responseWord opUpdate .counterOverflow = 0x02000003 := by
  decide

theorem responseWord_finalize_invalidState : responseWord opFinalize .invalidState = 0x03000002 := by decide

theorem responseWord_readDigest_ok : responseWord opReadDigest .ok = 0x04000000 := by decide

theorem responseWord_readDigest_invalidState : responseWord opReadDigest .invalidState = 0x04000002 := by
  decide

/-- R13, R188: an error writes the response and nothing else. -/
theorem State.raise_eq (s : State) (op : Byte) (e : Status) :
    s.raise op e = { s with output := s.output ++ [⟨responseWord op e, []⟩] } := rfl

/-- R78, R184: an illegal descriptor is answered and writes nothing else. -/
theorem runCommand_of_decode_illegal {d : Descriptor} {p : List Byte}
    (h : decode d p = .illegal (opcodeOf d)) (s : State) :
    runCommand d p s =
      .next { s with output := s.output ++ [⟨opcodeOf d ++ (0x000004 : BitVec 24), []⟩] } := by
  rw [runCommand, h, ← responseWord_illegalCommand]; rfl

/-! ### CONSTRUCT -/

theorem encodeDescriptor_construct (alg : Byte) :
    encodeDescriptor (.construct alg) = (0x01 : Byte) ++ alg ++ (0 : BitVec 48) := by
  refine (BitVec.append_assoc (x₁ := opConstruct ++ alg) (x₂ := 0#16) (x₃ := 0#32)).trans ?_
  rfl

/-- Settles O16: the two outcomes of CONSTRUCT, and a nonzero field that R74 requires to be zero makes its
descriptor illegal. -/
theorem constructStartsInstance : Obligations.ConstructStartsInstance := by
  refine ⟨encodeDescriptor_construct, fun s => ?_, fun alg s halg => ?_, fun d p s hop hfield => ?_⟩
  · refine (exec_construct_sha256 s).trans ?_
    rw [State.respond, responseWord_construct_ok]; rfl
  · rw [exec_construct_other halg, State.raise_eq, responseWord_construct_unsupportedAlgorithm]
  · have hillegal : decode d p = .illegal (opcodeOf d) := by
      rw [decode_illegal_iff, hop]
      exact .inr (.inr (hfield.imp_right fun hn => .inr ⟨by decide, hn⟩))
    rw [runCommand_of_decode_illegal hillegal, hop]; rfl

/-- R161: what stood in the engine before CONSTRUCT is in no view after it. -/
theorem State.sameView_construct {s t : State} (hin : s.input = t.input) (hout : s.output = t.output)
    (alg : Byte) (p : Config.AlgParams 32 8 64) : (s.construct alg p).SameView (t.construct alg p) where
  lc_eq := rfl
  input_eq := hin
  output_eq := hout
  active_eq _ := ⟨rfl, rfl, by simp⟩
  digest_eq := nofun

/-- Settles O37, by `State.sameView_construct`; both engines send the same response. -/
theorem constructForgetsTheOldInstance : Obligations.ConstructForgetsTheOldInstance := fun s t hin hout =>
  ⟨_, _, exec_construct_sha256 s, exec_construct_sha256 t,
    (State.sameView_construct hin hout _ _).respond _ _ _⟩

/-! ### Whole blocks -/

/-- Bytes that are whole blocks are cut into those blocks and nothing is left (R143). -/
theorem flatMap_blocksOf {x : List Byte} (hx : x.length % 64 = 0) :
    (blocksOf x).flatMap Vector.toList = x := by
  have h := blocksOf_append_tailOf x
  rwa [tailOf_eq_nil hx, List.append_nil] at h

theorem chain_block (H : Vector Word 8) (b : Block) : chain H b.toList = compress H b := by
  have h : blocksOf b.toList = [b] := (cut_unique (x := []) (by decide) (by simp)).1
  rw [chain, h, List.foldl_cons, List.foldl_nil]

/-- Settles O47: a block is whole, so `chain_append` chains it first. -/
theorem chainFoldsBlocks : Obligations.ChainFoldsBlocks := by
  refine ⟨chain_nil, fun H b x _ => ?_⟩
  rw [chain_append H (by simp), chain_block]

/-! ### UPDATE -/

/-- Settles O17: the cut of the pending bytes and the chunk, and what `absorb` leaves of it. -/
theorem updateAbsorbsChunk : Obligations.UpdateAbsorbsChunk := by
  intro s data hlc hl
  have hbuf := absorb_bufLen s data
  have htail : (tailOf (s.pending ++ data)).length = (s.bufLen.val + data.length) % 64 := by
    rw [tailOf_length, List.length_append, pending_length]
  refine ⟨_, blocksOf (s.pending ++ data), tailOf (s.pending ++ data), exec_update_ok hlc hl,
    (blocksOf_append_tailOf _).symm, tailOf_length_lt _, absorb_h s data, absorb_pending s data,
    hbuf.trans htail.symm, hbuf, absorb_len_toNat s data hl, ?_⟩
  simp [hlc, responseWord_update_ok]

/-- Settles O19: the three outcomes of UPDATE and FINALIZE in `ACTIVE`; the overflow's response changes none
of what their checks read. -/
theorem updateFailsPastTheCounterLimit : Obligations.UpdateFailsPastTheCounterLimit := by
  intro s data hlc
  have hraise := s.raise_eq opUpdate .counterOverflow
  rw [responseWord_update_counterOverflow] at hraise
  rw [← hraise]
  have hlc' : (s.raise opUpdate .counterOverflow).lc = .active := hlc
  refine ⟨fun hover => ⟨exec_update_overflow hlc hover, fun data' hl => ?_, ?_⟩, fun hlimit => ?_⟩
  · exact ⟨_, exec_update_ok hlc' hl, by simp [responseWord_update_ok, responseWord_update_counterOverflow]⟩
  · exact ⟨_, exec_finalize_ok hlc',
      by simp [responseWord_finalize_ok, responseWord_update_counterOverflow]⟩
  · have hl : s.len.toNat + data.length ≤ lenMax := Nat.le_of_eq hlimit
    exact ⟨_, exec_update_ok hlc hl, (absorb_len_toNat s data hl).trans hlimit, by simp [hlc],
      by simp [responseWord_update_ok]⟩

/-- Settles O20: the lifecycle check comes first, and an error writes nothing. -/
theorem updateNeedsActive : Obligations.UpdateNeedsActive := by
  intro s data hlc
  rw [exec_update_inactive hlc, State.raise_eq, responseWord_update_invalidState]

/-! ### Padding -/

/-- The bit count of a message within the limit fits the length field (R8, R151). -/
theorem beNat_lengthField {L : Nat} (hL : L ≤ lenMax) : beNat (be64enc (BitVec.ofNat 64 (8 * L))) = 8 * L := by
  rw [beNat_be64enc, BitVec.toNat_ofNat]
  simp only [lenMax] at hL
  omega

/-- Settles O21: the number of zeros is `padZeros_eq`, and its minimality is arithmetic. -/
theorem paddingFillsOneOrTwoBlocks : Obligations.PaddingFillsOneOrTwoBlocks := by
  intro tail L htail hL
  have hz := padZeros_eq htail
  refine ⟨padZeros tail.length, be64enc (BitVec.ofNat 64 (8 * L)), rfl, be64enc_length _,
    beNat_lengthField hL, hz, ?_, fun y hy => ?_, pad_length htail L⟩
  · rw [hz]; split <;> omega
  · rw [hz] at hy; split at hy <;> omega

theorem pad_nil (L : Nat) :
    pad [] L = 0x80 :: (List.replicate 55 0x00 ++ be64enc (BitVec.ofNat 64 (8 * L))) := rfl

section

variable (s : State)

/-- R152: what FINALIZE compresses is one block or two, as up to 55 bytes were pending or more. -/
theorem pad_pending_length :
    (pad s.pending s.len.toNat).length = if s.bufLen.val ≤ 55 then 64 else 128 := by
  rw [pad_length (by rw [pending_length]; exact s.bufLen.isLt), pending_length]

theorem pad_pending_length_mod : (pad s.pending s.len.toNat).length % 64 = 0 := by
  rw [pad_pending_length]; split <;> rfl

theorem blocksOf_pad_pending_length :
    (blocksOf (pad s.pending s.len.toNat)).length = if s.bufLen.val ≤ 55 then 1 else 2 := by
  rw [blocksOf_length, pad_pending_length]; split <;> rfl

end

/-! ### FINALIZE -/

/-- Settles O22: `finalH` folds `compress` over the blocks of the padded tail, and the padded tail is those
blocks. -/
theorem finalizeEmitsDigest : Obligations.FinalizeEmitsDigest := by
  intro s hlc
  refine ⟨_, blocksOf (pad s.pending s.len.toNat), exec_finalize_ok hlc,
    flatMap_blocksOf (pad_pending_length_mod s), blocksOf_pad_pending_length s, rfl,
    encodeDigest_toList s.finalH, rfl, rfl, rfl, rfl, rfl, ?_⟩
  simp [responseWord_finalize_ok]

/-- Settles O23: the lifecycle check comes first, and an error writes nothing. -/
theorem finalizeNeedsActive : Obligations.FinalizeNeedsActive := by
  intro s hlc
  rw [exec_finalize_inactive hlc, State.raise_eq, responseWord_finalize_invalidState]

/-- Settles O24: no byte is left after whole blocks, and the padding of no byte is one block. -/
theorem alignedInputStillGetsPaddingBlock : Obligations.AlignedInputStillGetsPaddingBlock := by
  intro s m hm _ haligned
  have hbuf : s.bufLen = 0 := Fin.ext (hm.bufLen_eq.trans haligned)
  have hpend : s.pending = [] := List.eq_nil_of_length_eq_zero (by rw [pending_length, hbuf]; rfl)
  have hlen : (pad [] m.length).length = 64 := pad_length (by decide) _
  have hblock : (firstBlock (pad [] m.length) (Nat.le_of_eq hlen.symm)).toList = pad [] m.length := by
    rw [firstBlock_toList, List.take_of_length_le (Nat.le_of_eq hlen)]
  refine ⟨hbuf, hpend, _, firstBlock _ (Nat.le_of_eq hlen.symm), exec_finalize_ok hm.active, ?_,
    hblock.trans (pad_nil _)⟩
  rw [State.respond_h, State.finalize_h, State.finalH, hpend, hm.len_eq, ← chain_block, hblock]

/-- Settles O32, by `State.Absorbed.exec_finalize`. -/
theorem finalizeReturnsSha256 : Obligations.FinalizeReturnsSha256 := by
  intro s m hm
  obtain ⟨t, ht, -, hdigest, hout⟩ := hm.exec_finalize
  exact ⟨t, ht, hdigest, hout⟩

/-! ### From CONSTRUCT to the digest -/

/-- Settles O33: `execAll_hashRun` holds of every list of chunks; that each fits one UPDATE is not needed. -/
theorem chunkingNeverChangesTheDigest : Obligations.ChunkingNeverChangesTheDigest :=
  fun s _ _ hl => execAll_hashRun s hl

/-- The published digest of the empty input (R157, V-S1). -/
theorem sha256Of_nil : sha256Of [] =
    [0xe3, 0xb0, 0xc4, 0x42, 0x98, 0xfc, 0x1c, 0x14, 0x9a, 0xfb, 0xf4, 0xc8, 0x99, 0x6f, 0xb9, 0x24,
     0x27, 0xae, 0x41, 0xe4, 0x64, 0x9b, 0x93, 0x4c, 0xa4, 0x95, 0x99, 0x1b, 0x78, 0x52, 0xb8, 0x55] := by
  decide +kernel

/-- Settles O35: any number of empty chunks is the empty message, whose digest is evaluated. -/
theorem emptyInputGivesPublishedDigest : Obligations.EmptyInputGivesPublishedDigest := by
  refine ⟨by decide, fun s k => ?_⟩
  have hflat : (List.replicate k ([] : List Byte)).flatten = [] := by simp
  obtain ⟨t, ht, -, -, hout⟩ := execAll_hashRun s (chunks := List.replicate k []) (by simp [hflat])
  rw [hflat, sha256Of_nil] at hout
  exact ⟨t, ht, hout⟩

/-! ### READ_DIGEST and a finalized engine -/

/-- Settles O25: the two outcomes of READ_DIGEST, and no other descriptor of its opcode decodes. -/
theorem readDigestReturnsDigest : Obligations.ReadDigestReturnsDigest := by
  refine ⟨by decide, fun s hlc => ?_, fun s hlc => ?_, fun d p s hop hd => ?_⟩
  · rw [exec_readDigest_ok hlc, State.respond, responseWord_readDigest_ok]
  · have hne : s.lc ≠ .finalized := by obtain h | h := hlc <;> simp [h]
    rw [exec_readDigest_other hne, State.raise_eq, responseWord_readDigest_invalidState]
  · have hillegal : decode d p = .illegal (opcodeOf d) := by
      obtain ⟨_, rfl, -⟩ | ⟨_, rfl, -⟩ | ⟨rfl, -⟩ | ⟨rfl, -⟩ | h := decode_cases d p
      case inr.inr.inr.inl => exact absurd (by decide) hd
      case inr.inr.inr.inr => exact h
      all_goals simp at hop
    rw [runCommand_of_decode_illegal hillegal, hop]; rfl

/-- R155, R156: a finalized engine answers every command but CONSTRUCT of SHA-256 and stays as it is. -/
theorem exec_of_finalized {s : State} (hlc : s.lc = .finalized) {i : Instr} (hi : i ≠ .construct 0x01) :
    exec i s = .next { s with output := s.output ++ [finalizedResponse s.digest.toList i] } := by
  have hne : s.lc ≠ .active := by simp [hlc]
  cases i with
  | construct alg =>
    have halg : alg ≠ algSha256 := fun h => hi (congrArg _ h)
    rw [exec_construct_other halg, State.raise_eq, responseWord_construct_unsupportedAlgorithm,
      finalizedResponse, if_neg (show alg ≠ 0x01 from halg)]
  | update data => rw [exec_update_inactive hne, State.raise_eq, responseWord_update_invalidState]; rfl
  | finalize => rw [exec_finalize_inactive hne, State.raise_eq, responseWord_finalize_invalidState]; rfl
  | readDigest => rw [exec_readDigest_ok hlc, State.respond, responseWord_readDigest_ok]; rfl

/-- Settles O26, by induction on the commands: each leaves the engine finalized with the same digest. -/
theorem digestSurvivesMisuse : Obligations.DigestSurvivesMisuse := by
  intro is
  induction is with
  | nil => intro s _ _; simp [execAll]
  | cons i is ih =>
    intro s hlc hmem
    rw [List.mem_cons, not_or] at hmem
    obtain ⟨hi, his⟩ := hmem
    have hrest := ih { s with output := s.output ++ [finalizedResponse s.digest.toList i] } hlc his
    rw [execAll_cons_of_next (exec_of_finalized hlc (Ne.symm hi)), hrest, List.append_assoc]; rfl

/-! ### Compressions -/

/-- R162: an UPDATE that succeeds compresses each full block of the pending bytes and the chunk. -/
theorem compressions_update {s : State} {data : List Byte} (hlc : s.lc = .active)
    (hl : s.len.toNat + data.length ≤ lenMax) :
    compressions s (.update data) = (s.bufLen.val + data.length) / 64 := by
  rw [compressions, if_pos ⟨hlc, hl⟩, blocksOf_length, List.length_append, pending_length]

theorem compressions_finalize {s : State} (hlc : s.lc = .active) :
    compressions s .finalize = if s.bufLen.val ≤ 55 then 1 else 2 := by
  rw [compressions, if_pos hlc, blocksOf_pad_pending_length]

/-- R162: a command that fails compresses nothing. -/
theorem compressions_of_expectedStatus_ne_ok {s : State} {i : Instr}
    (h : expectedStatus s (encodeDescriptor i) i.payload ≠ .ok) : compressions s i = 0 := by
  simp only [expectedStatus, decode_encodeDescriptor] at h
  cases i with
  | construct alg => rfl
  | update data =>
    refine if_neg fun ⟨hlc, hl⟩ => h ?_
    simp only [hlc, Nat.not_lt.mpr hl, ne_eq, not_true, if_false]
  | finalize => exact if_neg fun hlc => h (if_pos hlc)
  | readDigest => rfl

theorem runCompressions_cons_of_next {i : Instr} {s t : State} (h : exec i s = .next t) (is : List Instr) :
    runCompressions (i :: is) s = compressions s i + runCompressions is t := by
  rw [runCompressions, h]

/-- The compressions of the blocks of `m`, those still to come and those of the padding add up to the
whole message's, so that the split into chunks drops out (R162). -/
theorem State.Absorbed.runCompressions_updates_finalize {s : State} {m : List Byte}
    {chunks : List (List Byte)} (h : s.Absorbed m) (hl : m.length + chunks.flatten.length ≤ lenMax) :
    m.length / 64 + runCompressions (chunks.map .update ++ [.finalize]) s =
      (m.length + chunks.flatten.length) / 64 + 1 +
        (if (m.length + chunks.flatten.length) % 64 ≥ 56 then 1 else 0) := by
  induction chunks generalizing s m with
  | nil =>
    rw [List.map_nil, List.nil_append, runCompressions_cons_of_next (exec_finalize_ok h.active),
      compressions_finalize h.active, h.bufLen_eq, runCompressions, List.flatten_nil, List.length_nil]
    split <;> split <;> omega
  | cons c cs ih =>
    rw [List.flatten_cons, List.length_append] at hl ⊢
    have hc : m.length + c.length ≤ lenMax := by omega
    have hs : s.len.toNat + c.length ≤ lenMax := by rwa [h.len_eq]
    have hrest := ih ((h.absorb hc).respond opUpdate .ok []) (by rw [List.length_append]; omega)
    rw [List.length_append, Nat.add_assoc m.length] at hrest
    rw [List.map_cons, List.cons_append, runCompressions_cons_of_next (exec_update_ok h.active hs),
      compressions_update h.active hs, h.bufLen_eq, ← hrest]
    omega

/-- Settles O38: the counts of each command, and those of the run from the empty message. -/
theorem compressionCounts : Obligations.CompressionCounts := by
  refine ⟨fun s data hlc hl => compressions_update hlc hl, fun s hs hlc => ?_,
    fun s i h _ => compressions_of_expectedStatus_ne_ok h, fun s chunks _ hl => ?_⟩
  · obtain ⟨-, hactive, -⟩ := hs
    rw [compressions_finalize hlc, hactive hlc]
  · have hinit := s.absorbed_nil_construct.respond opConstruct .ok []
    have hrun := hinit.runCompressions_updates_finalize (chunks := chunks)
      (by rwa [List.length_nil, Nat.zero_add])
    rw [List.length_nil, Nat.zero_div, Nat.zero_add, Nat.zero_add] at hrun
    rw [hashRun, runCompressions_cons_of_next (exec_construct_sha256 s), hrun, compressions, Nat.zero_add]

end Sys2Proof.Machine

/-! SUPPORT. The family `60_exceptions.md`: which status each command reports and exactly when, what an error
leaves unchanged, the idle engine, and the obligations that follow. -/

namespace Sys2Proof.Machine

/-! ### The status of a command of the table (R181 to R183) -/

theorem expectedStatus_construct (s : State) (alg : Byte) :
    expectedStatus s (encodeDescriptor (.construct alg)) (Instr.construct alg).payload =
      if alg = algSha256 then .ok else .unsupportedAlgorithm := by
  simp only [expectedStatus, decode_encodeDescriptor]

theorem expectedStatus_update (s : State) (data : List Byte) :
    expectedStatus s (encodeDescriptor (.update data)) (Instr.update data).payload =
      if s.lc ≠ .active then .invalidState
      else if s.len.toNat + data.length > lenMax then .counterOverflow else .ok := by
  simp only [expectedStatus, decode_encodeDescriptor]

theorem expectedStatus_finalize (s : State) :
    expectedStatus s (encodeDescriptor .finalize) Instr.finalize.payload =
      if s.lc = .active then .ok else .invalidState := by
  simp only [expectedStatus, decode_encodeDescriptor]

theorem expectedStatus_readDigest (s : State) :
    expectedStatus s (encodeDescriptor .readDigest) Instr.readDigest.payload =
      if s.lc = .finalized then .ok else .invalidState := by
  simp only [expectedStatus, decode_encodeDescriptor]

/-- R181: an identifier outside the supported set is the one cause of status 01. -/
theorem expectedStatus_eq_unsupportedAlgorithm_iff (i : Instr) (s : State) :
    expectedStatus s (encodeDescriptor i) i.payload = .unsupportedAlgorithm ↔
      ∃ alg, i = .construct alg ∧ alg ≠ 0x01 := by
  cases i with
  | construct alg => rw [expectedStatus_construct]; split_ifs with h <;> simpa [algSha256] using h
  | update data => rw [expectedStatus_update]; split_ifs <;> simp
  | finalize => rw [expectedStatus_finalize]; split_ifs <;> simp
  | readDigest => rw [expectedStatus_readDigest]; split_ifs <;> simp

/-- R182: the wrong lifecycle state is the one cause of status 02. -/
theorem expectedStatus_eq_invalidState_iff (i : Instr) (s : State) :
    expectedStatus s (encodeDescriptor i) i.payload = .invalidState ↔
      (((∃ data, i = .update data) ∨ i = .finalize) ∧ s.lc ≠ .active) ∨
        (i = .readDigest ∧ s.lc ≠ .finalized) := by
  cases i with
  | construct alg => rw [expectedStatus_construct]; split_ifs <;> simp
  | update data => rw [expectedStatus_update]; split_ifs with hlc <;> simp [hlc]
  | finalize => rw [expectedStatus_finalize]; simp
  | readDigest => rw [expectedStatus_readDigest]; simp

/-- R183: an `ACTIVE` engine whose count would pass the limit is the one cause of status 03. -/
theorem expectedStatus_eq_counterOverflow_iff (i : Instr) (s : State) :
    expectedStatus s (encodeDescriptor i) i.payload = .counterOverflow ↔
      ∃ data, i = .update data ∧ s.lc = .active ∧ s.len.toNat + data.length > 2 ^ 61 - 1 := by
  cases i with
  | construct alg => rw [expectedStatus_construct]; split_ifs <;> simp
  | update data => rw [expectedStatus_update]; by_cases hlc : s.lc = .active <;> simp [hlc, lenMax]
  | finalize => rw [expectedStatus_finalize]; split_ifs <;> simp
  | readDigest => rw [expectedStatus_readDigest]; split_ifs <;> simp

/-- R78: a command of the table is no illegal one. -/
theorem expectedStatus_ne_illegalCommand (i : Instr) (s : State) :
    expectedStatus s (encodeDescriptor i) i.payload ≠ .illegalCommand := by
  cases i with
  | construct alg => rw [expectedStatus_construct]; split_ifs <;> simp
  | update data => rw [expectedStatus_update]; split_ifs <;> simp
  | finalize => rw [expectedStatus_finalize]; split_ifs <;> simp
  | readDigest => rw [expectedStatus_readDigest]; split_ifs <;> simp

/-! ### Status codes (R81) -/

theorem Status.code_inj {e f : Status} : e.code = f.code ↔ e = f := by
  cases e <;> cases f <;> decide

theorem Status.code_of_ne_illegalCommand {e : Status} (h : e ≠ .illegalCommand) :
    e.code = 0x00 ∨ e.code = 0x01 ∨ e.code = 0x02 ∨ e.code = 0x03 := by
  cases e with
  | ok => exact .inl rfl
  | unsupportedAlgorithm => exact .inr (.inl rfl)
  | invalidState => exact .inr (.inr (.inl rfl))
  | counterOverflow => exact .inr (.inr (.inr rfl))
  | illegalCommand => exact absurd rfl h

/-! ### The obligations -/

/-- Settles O9: `runCommand_of_expectedStatus_ne_ok`, and to raise an error is to send its response. -/
theorem errorsLeaveNoTrace : Obligations.ErrorsLeaveNoTrace := by
  intro s d p h
  rw [runCommand_of_expectedStatus_ne_ok h, State.raise_eq]

/-- Settles O10: a command answers once with its expected status, whose cause each `iff` above names; what
reports another status than `OK` leaves no trace. -/
theorem eachErrorHasItsCause : Obligations.EachErrorHasItsCause := by
  intro i s
  obtain ⟨t, ht, -, hout⟩ := runCommand_answersOnce (encodeDescriptor i) i.payload s
  refine ⟨t, _, (runCommand_encode i s).symm.trans ht, hout, ?_⟩
  rw [Response.status_responseWord]
  refine ⟨Status.code_inj.trans (expectedStatus_eq_unsupportedAlgorithm_iff i s),
    Status.code_inj.trans (expectedStatus_eq_invalidState_iff i s),
    Status.code_inj.trans (expectedStatus_eq_counterOverflow_iff i s),
    Status.code_of_ne_illegalCommand (expectedStatus_ne_illegalCommand i s), fun h => ?_⟩
  have hne : expectedStatus s (encodeDescriptor i) i.payload ≠ .ok := mt (Status.code_eq_zero_iff _).mpr h
  have hpay : expectedPayload (opcodeOf (encodeDescriptor i))
      (expectedStatus s (encodeDescriptor i) i.payload) t.digest = [] := if_neg fun hok => hne hok.1
  cases ht.symm.trans (errorsLeaveNoTrace s _ _ hne)
  exact ⟨hpay, by rw [hpay]⟩

/-- Settles O13: the engine finds nothing on an empty channel, and waits. -/
theorem idleEngineHoldsItsState : Obligations.IdleEngineHoldsItsState := by
  intro s h
  rw [step, h]
  rfl

end Sys2Proof.Machine

/-! SUPPORT. The family `70_reset_and_hazards.md`: what the engine finds when a reset strikes a whole command
before its response, the step of a reset, and the obligation that follows. -/

namespace Sys2Proof.Machine

/-- A reset after a command's last byte and before its response leaves nothing of the command on the channel
(R211, U10). -/
theorem fetch_resetBeforeResponse {d : Descriptor} {p : List Byte} (hp : p.length = payloadLen d)
    (rest : List ChannelItem) :
    fetch (sent (be64enc d ++ p) ++ .resetBeforeResponse :: rest) = .reset rest :=
  fetch_sent d p _ hp

/-- An engine that finds a reset on its channel applies it (R210). -/
theorem step_of_fetch_reset {s : State} {rest : List ChannelItem} (h : fetch s.input = .reset rest) :
    step s = .next (s.applyReset rest) := by
  rw [step, h]
  rfl

/-- Settles O12: inside a command and after its last byte alike, the engine finds the reset and nothing of the
command, and what it then does is `State.applyReset`. -/
theorem resetAbandonsCommandInProgress : Obligations.ResetAbandonsCommandInProgress := by
  intro s bs item rest hin hstrike
  have hfetch : fetch s.input = .reset rest := by
    rw [hin]
    obtain ⟨hitem, hprefix⟩ | ⟨rfl, d, p, hp, rfl⟩ := hstrike
    · exact fetch_prefix_reset hprefix item rest hitem
    · exact fetch_resetBeforeResponse hp rest
  exact ⟨s.applyReset rest, step_of_fetch_reset hfetch, s.applyReset_lc rest, s.applyReset_input rest,
    s.applyReset_output rest, rfl⟩

end Sys2Proof.Machine
